-- ==== Sys2Proof/Word.lean ====
section
/-! DEFINITION. The plain types of the block: bytes, 32-bit words and byte strings (spec/00_scope.md R12). -/

namespace Sys2Proof

/-- One byte of a byte string (R12). -/
abbrev Byte := BitVec 8

/-- A 32-bit unsigned value: ring indices, counters, header words and clock readings (R11). -/
abbrev Word := BitVec 32

/-- A byte string, indexed from 0 (R12). -/
abbrev Bytes := List Byte

/-- A byte string that stands where a block is required.
A Raw Block or a Decimated Block has exactly 512 bytes (R10); what was presented may have another length, which is a shape
violation (R63), so the length is a check and not part of the type. -/
abbrev Block := List Byte

end Sys2Proof
end

