-- ==== Sys2Proof/Config.lean ====
section
/-! DEFINITION. What is fixed for one instance of the block: the agents, the constants of spec/00_scope.md R10, the parameters
of R9 with their legal ranges, and the values the spec leaves open (opaque, so that no proof can see them). -/

namespace Sys2Proof

/-- The four agents that take steps (R17): the capture producer, the Transfer Stage, the Batch/Decimate Stage and the host. -/
inductive Agent where
  | P
  | T
  | B
  | H
  deriving DecidableEq, Repr

namespace Config

/-- Bytes of a Raw Block and of a Decimated Block (R10). -/
abbrev blockBytes : Nat := 512
/-- Samples of a block (R10). -/
abbrev samples : Nat := 128
/-- Raw Blocks averaged into one Decimated Block (R10). -/
abbrev decim : Nat := 8
/-- Bytes of the frame header (R10). -/
abbrev headerBytes : Nat := 30
/-- The literal that the `header_len` field carries, which is not the header's length (R10, R93, 90_conflicts.md C3). -/
abbrev headerLenField : Nat := 24
/-- Least sample value (R10). -/
abbrev sMin : Int := -8388608
/-- Greatest sample value (R10). -/
abbrev sMax : Int := 8388607

/-- Free value: the OPEN parameter `DEV_ID` of the instance that comes out of reset (R9, V1; assumption 2). -/
opaque devId : Word
/-- Free value: the OPEN parameter `TOPIC_HINT` of that instance, held as a byte string (R9, V2; assumption 2). -/
opaque topicHint : Bytes
/-- Free value: what the n-th draw of `NOW_MS` reads when the environment has listed no reading (R192, V3; assumption 4). -/
opaque nowMs : Nat → Word
/-- Free value: the 2-bit code the n-th draw of `PUB_RESULT` reads when the environment has listed none (R214, V4;
assumption 4). -/
opaque pubResult : Nat → BitVec 2
/-- Free value: what RESET leaves in a register whose content the spec calls unspecified after it (R261; assumption 6). -/
opaque freeWord : Nat → Word
/-- Free value: the 32-bit diagnostic reading of a quantity that does not fit in 32 bits, on which the spec is silent
(R35; assumption 12). -/
opaque wideDiag : Nat → Word

end Config

/-- The parameters of R9, fixed at construction and never changed afterwards. -/
structure Params where
  /-- `RING_N`: Raw Block slots of the Capture Ring. -/
  ringN : Nat
  /-- `QUEUE_DEPTH`: capacity of the Batch Queue in Raw Blocks. -/
  queueDepth : Nat
  /-- `BATCH_K`: Decimated Blocks in one Batch Frame. -/
  batchK : Nat
  /-- `TICK_PERIOD_MS`: timing only, no rule depends on it (R9, D30). -/
  tickPeriodMs : Nat
  /-- `POP_TIMEOUT_MS`: timing only, no rule depends on it (R9, D30). -/
  popTimeoutMs : Nat
  /-- `EVT_PERIOD`: successful pops between two observability events. -/
  evtPeriod : Nat
  /-- `SAMPLE_RATE_HZ`: value of the `sample_rate_hz` header field, 0 to 65535. -/
  sampleRateHz : BitVec 16
  /-- `DEV_ID`: value of the `dev_id` header field. -/
  devId : Word
  /-- `TOPIC_HINT`: goes with every frame, inspected by no rule (R214, D14). -/
  topicHint : Bytes
  /-- `OVERRUN_COUNT_EN`: whether the ring counts overwritten blocks (R25, D7). -/
  overrunCountEn : Bool
  deriving DecidableEq, Repr

/-- The legal ranges of R9; outside them no rule of the spec applies (93_implementation_defined.md P5). -/
abbrev Params.legal (c : Params) : Prop :=
  (∃ k : Fin 32, c.ringN = 2 ^ k.val) ∧ 1 ≤ c.queueDepth ∧ (1 ≤ c.batchK ∧ c.batchK ≤ 65535) ∧ 1 ≤ c.evtPeriod

/-- The reference instance (92_eei_decisions.md, section "Reference instance"), `DEV_ID` and `TOPIC_HINT` left open. -/
def Params.reference : Params :=
  { ringN := 8, queueDepth := 256, batchK := 4, tickPeriodMs := 8, popTimeoutMs := 16, evtPeriod := 64,
    sampleRateHz := 1000, devId := Config.devId, topicHint := Config.topicHint, overrunCountEn := false }

/-- Bytes of a Batch Frame's body, `BATCH_K`·512 (R88). -/
def Params.bodyBytes (c : Params) : Nat := c.batchK * Config.blockBytes

/-- Bytes of a Batch Frame, 30 + `BATCH_K`·512 (R88, R97). -/
def Params.frameBytes (c : Params) : Nat := Config.headerBytes + c.bodyBytes

end Sys2Proof
end

