-- ==== Sys2Proof/Syntax.lean ====
section
/-! DEFINITION. The 17 operations of the block (spec/30_encoding.md R100), one constructor per row of spec/opcode_table.json,
with the operands of R101 as typed arguments. -/

namespace Sys2Proof

/-- The operations. An operation's caller is no operand: it comes with the request (R101, R251) and State holds it. -/
inductive Instr where
  /-- `RING.PUSH`: the block presented (R121). -/
  | ringPush (block : Block)
  /-- `RING.TRY_POP` (R122). -/
  | ringTryPop
  /-- `RING.LEVEL` (R123). -/
  | ringLevel
  /-- `BQ.TRY_PUSH`: the block to append (R141). -/
  | bqTryPush (block : Block)
  /-- `BQ.POP` (R142). -/
  | bqPop
  /-- `BQ.DISCARD` (R146). -/
  | bqDiscard
  /-- `XFER.TICK` (R156). -/
  | xferTick
  /-- `XFER.STOP` (R160). -/
  | xferStop
  /-- `DECIMATE`: eight blocks, the oldest first (R171). -/
  | decimate (blocks : List Block)
  /-- `ASM.APPEND`: a Decimated Block and the clock reading (R191). -/
  | asmAppend (block : Block) (nowMs : Word)
  /-- `FRAME.ENCODE`: the two header words that vary and the body (R195). -/
  | frameEncode (seqFirst tsMs : Word) (body : Bytes)
  /-- `BSTAGE.STEP` (R212). -/
  | bstageStep
  /-- `BSTAGE.STOP` (R216). -/
  | bstageStop
  /-- `SINK.PUBLISH`: the frame offered (R214). -/
  | sinkPublish (frame : Bytes)
  /-- `CAP.DELIVER`: `none`, or the block captured (R210). -/
  | capDeliver (opt : Option Block)
  /-- `DIAG.READ`: the selector (R247). -/
  | diagRead (sel : Byte)
  /-- `RESET` (R261). -/
  | reset
  deriving DecidableEq, Repr

end Sys2Proof
end

