-- ==== Sys2Proof/WellFormed.lean ====
section
/-! DEFINITION. Which operand shapes an `OP8` request can carry (spec/30_encoding.md R101, spec/opcode_table.json).
The blocks of RING.PUSH, CAP.DELIVER and ASM.APPEND have no length check here: the spec gives a block of another length a
meaning there, the shape violation (R121, R210, R191). -/

namespace Sys2Proof

/-- A block has exactly 512 bytes (R10, R62). -/
def isBlock (b : Block) : Bool := b.length == Config.blockBytes

/-- The operands fit the request payload of R101 for an instance with parameters `c`. -/
def wellFormed (c : Params) : Instr → Bool
  | .bqTryPush b => isBlock b
  | .decimate bs => bs.length == Config.decim && bs.all isBlock
  | .frameEncode _ _ body => body.length == c.bodyBytes
  | .sinkPublish frame => frame.length == c.frameBytes
  | .ringPush _ => true
  | .ringTryPop => true
  | .ringLevel => true
  | .bqPop => true
  | .bqDiscard => true
  | .xferTick => true
  | .xferStop => true
  | .asmAppend _ _ => true
  | .bstageStep => true
  | .bstageStop => true
  | .capDeliver _ => true
  | .diagRead _ => true
  | .reset => true

end Sys2Proof
end

