-- ==== Sys2Proof/Decode.lean ====
section
/-! DEFINITION. Byte order, the decoder of `OP8` requests (spec/30_encoding.md R100, R101), total on any bytes and rejecting by
name, and the encoder written from the same tables. A request is one framed message: its length is part of what was sent
(R121 gives a RING.PUSH of 511 bytes a meaning of its own). -/

namespace Sys2Proof

/-- Byte `k` of a byte string (R12). DESIGN CHOICE: past the end, where R12 gives no byte, it is 0; only a receiver's read of a
frame that is cut short gets there (R98; assumption 20). -/
def byteAt (b : Bytes) (k : Nat) : Byte := b.getD k 0

/-- `le16(v)` of R12. -/
def le16 (v : BitVec 16) : Bytes := [v.extractLsb' 0 8, v.extractLsb' 8 8]

/-- `le32(v)` of R12. -/
def le32 (v : Word) : Bytes := [v.extractLsb' 0 8, v.extractLsb' 8 8, v.extractLsb' 16 8, v.extractLsb' 24 8]

/-- `rd_le32(b, off)` of R12: the byte at `off` is the least significant one (R61). -/
def rdLe32 (b : Bytes) (off : Nat) : Word :=
  byteAt b (off + 3) ++ byteAt b (off + 2) ++ byteAt b (off + 1) ++ byteAt b off

/-- The 16-bit little-endian value at `off` (R98). -/
def rdLe16 (b : Bytes) (off : Nat) : BitVec 16 := byteAt b (off + 1) ++ byteAt b off

/-- Why a request is no operation. -/
inductive DecodeError where
  /-- A message with no op-select byte. -/
  | empty
  /-- An op-select code not listed in R100 (R99 (5), R251 (d)). -/
  | unassigned (op : Byte)
  /-- A listed op-select code whose payload has not the form of R101 (93_implementation_defined.md E9; assumption 8). -/
  | malformed (op : Byte)
  deriving DecidableEq, Repr

/-- What the decoder answers. -/
inductive Decoded where
  | ok (i : Instr)
  | bad (e : DecodeError)
  deriving DecidableEq, Repr

/-- An operation whose request has no payload (R101). -/
def decodeBare (op : Byte) (i : Instr) : Bytes → Decoded
  | [] => .ok i
  | _ :: _ => .bad (.malformed op)

/-- The eight 512-byte blocks of a DECIMATE payload, the oldest first (R101). -/
def splitBlocks (p : Bytes) : List Block :=
  (List.range Config.decim).map fun k => (p.drop (Config.blockBytes * k)).take Config.blockBytes

/-- ASM.APPEND's payload: the block's bytes, then 4 bytes `now_ms` (R101). -/
def decodeAsmAppend (op : Byte) (p : Bytes) : Decoded :=
  if p.length < 4 then .bad (.malformed op)
  else .ok (.asmAppend (p.take (p.length - 4)) (rdLe32 p (p.length - 4)))

/-- CAP.DELIVER's payload: the byte `some`, then the block's bytes when it is 1 (R101, E9). -/
def decodeCapDeliver (op : Byte) : Bytes → Decoded
  | [] => .bad (.malformed op)
  | present :: b =>
    if present = 0x00#8 ∧ b = [] then .ok (.capDeliver none)
    else if present = 0x01#8 then .ok (.capDeliver (some b))
    else .bad (.malformed op)

/-- DIAG.READ's payload: one selector byte (R101). -/
def decodeDiagRead (op : Byte) : Bytes → Decoded
  | [sel] => .ok (.diagRead sel)
  | _ => .bad (.malformed op)

/-- The payload `p` read as the operands of op-select code `op` (R100, R101). -/
def decodePayload (c : Params) (op : Byte) (p : Bytes) : Decoded :=
  match op.toNat with
  | 0x01 => .ok (.ringPush p)
  | 0x02 => decodeBare op .ringTryPop p
  | 0x03 => decodeBare op .ringLevel p
  | 0x11 => if p.length = Config.blockBytes then .ok (.bqTryPush p) else .bad (.malformed op)
  | 0x12 => decodeBare op .bqPop p
  | 0x13 => decodeBare op .bqDiscard p
  | 0x20 => decodeBare op .xferTick p
  | 0x21 => decodeBare op .xferStop p
  | 0x30 => if p.length = Config.decim * Config.blockBytes then .ok (.decimate (splitBlocks p)) else .bad (.malformed op)
  | 0x40 => decodeAsmAppend op p
  | 0x41 =>
    if p.length = 8 + c.bodyBytes then .ok (.frameEncode (rdLe32 p 0) (rdLe32 p 4) (p.drop 8)) else .bad (.malformed op)
  | 0x50 => decodeBare op .bstageStep p
  | 0x51 => decodeBare op .bstageStop p
  | 0x60 => if p.length = c.frameBytes then .ok (.sinkPublish p) else .bad (.malformed op)
  | 0x70 => decodeCapDeliver op p
  | 0x7E => decodeDiagRead op p
  | 0x7F => decodeBare op .reset p
  | _ => .bad (.unassigned op)

/-- The operation a request's bytes stand for, or why they stand for none. -/
def decode (c : Params) : Bytes → Decoded
  | [] => .bad .empty
  | op :: p => decodePayload c op p

/-- The op-select code of an operation (R100). -/
def opSelect : Instr → Byte
  | .ringPush _ => 0x01
  | .ringTryPop => 0x02
  | .ringLevel => 0x03
  | .bqTryPush _ => 0x11
  | .bqPop => 0x12
  | .bqDiscard => 0x13
  | .xferTick => 0x20
  | .xferStop => 0x21
  | .decimate _ => 0x30
  | .asmAppend _ _ => 0x40
  | .frameEncode _ _ _ => 0x41
  | .bstageStep => 0x50
  | .bstageStop => 0x51
  | .sinkPublish _ => 0x60
  | .capDeliver _ => 0x70
  | .diagRead _ => 0x7E
  | .reset => 0x7F

/-- The request payload of an operation (R101). -/
def encodePayload : Instr → Bytes
  | .ringPush b => b
  | .bqTryPush b => b
  | .decimate bs => bs.flatten
  | .asmAppend b now => b ++ le32 now
  | .frameEncode seqFirst tsMs body => le32 seqFirst ++ le32 tsMs ++ body
  | .sinkPublish frame => frame
  | .capDeliver none => [0x00]
  | .capDeliver (some b) => 0x01 :: b
  | .diagRead sel => [sel]
  | .ringTryPop => []
  | .ringLevel => []
  | .bqPop => []
  | .bqDiscard => []
  | .xferTick => []
  | .xferStop => []
  | .bstageStep => []
  | .bstageStop => []
  | .reset => []

/-- The request that stands for an operation: the op-select byte, then the payload (R101). -/
def encode (i : Instr) : Bytes := opSelect i :: encodePayload i

/-- The bytes of a table word of `nbits` bits, bits 7:0 the first byte. -/
def bytesOfWord (nbits w : Nat) : Bytes :=
  (List.range (nbits / 8)).map fun k => BitVec.ofNat 8 (w >>> (8 * k))

/-- How many payload bytes R101 gives the request that begins with these bytes (a CAP.DELIVER's count depends on `some`). -/
def nominalPayload (c : Params) : Bytes → Nat
  | [] => 0
  | op :: p =>
    match op.toNat with
    | 0x01 => Config.blockBytes
    | 0x11 => Config.blockBytes
    | 0x30 => Config.decim * Config.blockBytes
    | 0x40 => Config.blockBytes + 4
    | 0x41 => 8 + c.bodyBytes
    | 0x60 => c.frameBytes
    | 0x70 => if byteAt p 0 = 0x01#8 then 1 + Config.blockBytes else 1
    | 0x7E => 1
    | _ => 0

/-- The message a table word stands for: its bytes, and zeros up to the payload R101 gives its operation. -/
def requestOfWord (c : Params) (nbits w : Nat) : Bytes :=
  let b := bytesOfWord nbits w
  b ++ List.replicate (1 + nominalPayload c b - b.length) 0

/-- The decoder applied to a table word under the reference instance. -/
def decodeTableWord (nbits w : Nat) : Option Instr :=
  match decode Params.reference (requestOfWord Params.reference nbits w) with
  | .ok i => some i
  | .bad _ => none

end Sys2Proof
end

