-- ==== Sys2Proof/Machine/State.lean ====
section
/-! DEFINITION. The state of the block (spec/10_state.md), the command interface and the inputs around it, and the state after
reset. Everything is plain data. -/

namespace Sys2Proof.Machine

/-- A block storage space (R37): pairs of an index and the whole block held there, indices strictly rising.
An index that is not listed holds no value (R40, V7, V8). -/
abbrev Memory := List (Nat × Block)

/-- The answer of the Publish Sink (R214, R215). -/
inductive PubResult where
  | ok
  | notReady
  | error
  deriving DecidableEq, Repr

/-- Why a request was refused (R251). -/
inductive RefuseReason where
  /-- The caller is not the operation's owner (R251 (a)). -/
  | notOwner
  /-- `fault = 1` and the operation is not one of the five admitted then (R251 (b)). -/
  | faulted
  /-- XFER.TICK with `t_run = 0`, or BSTAGE.STEP with `b_run = 0` (R251 (c)). -/
  | stopped
  /-- The message is no operation: unassigned op-select code (R251 (d)), or a payload that R101 does not allow (E9). -/
  | notAnOperation (e : DecodeError)
  deriving DecidableEq, Repr

/-- How the request executed last ended (R19). -/
inductive Answer where
  /-- No request has been executed yet. -/
  | idle
  /-- It completed, with this response payload (R101). -/
  | completed (payload : Bytes)
  /-- It raised the fatal fault with this code (R236). -/
  | faultRaised (code : BitVec 3)
  /-- It was refused: no state change, no output, no result (R251). -/
  | refused (why : RefuseReason)
  deriving DecidableEq, Repr

/-- One operation request: who calls, and the `OP8` message (R101). -/
structure Request where
  agent : Agent
  bytes : Bytes
  deriving DecidableEq, Repr

/-- The machine's state. -/
structure State where
  /-- The instance's parameters (R9), fixed at construction; no operation writes them. -/
  cfg : Params
  /-- `slot[]` of the Capture Ring, storage space `RING` (R21, R37). -/
  slots : Memory
  /-- `wr`, the free-running write index (R22). -/
  wr : Word
  /-- `rd`, the free-running read index (R23). -/
  rd : Word
  /-- `overruns`, blocks overwritten unread (R25). -/
  overruns : Word
  /-- `bq`, the Batch Queue, oldest first, storage space `QUEUE` (R26, R37). -/
  bq : List Block
  /-- `drops`, blocks lost to a full queue (R27). -/
  drops : Word
  /-- `total`, successful ring pops of the Transfer Stage (R27). -/
  total : Word
  /-- `g`, Raw Blocks gathered for the group in progress (R29). -/
  g : Nat
  /-- `gbuf[]`, storage space `GATHER` (R29, R37). -/
  gbuf : Memory
  /-- `a`, Decimated Blocks in the partial batch (R30). -/
  a : Nat
  /-- `acc`, their bodies, storage space `ACC` (R30, R37). -/
  acc : Bytes
  /-- `seq_first_r`, the number recorded at the batch's first block (R30). -/
  seqFirstR : Word
  /-- `ts0`, the clock reading recorded at that moment (R30). -/
  ts0 : Word
  /-- `seq`, the number the next Decimated Block gets (R31). -/
  seq : Word
  /-- `sink_not_ready`, frames discarded because the sink was not ready (R32). -/
  sinkNotReady : Word
  /-- `sink_error`, frames for which the sink answered `error` (R32). -/
  sinkError : Word
  /-- `t_run`, the Transfer Stage is running (R33). -/
  tRun : Bool
  /-- `b_run`, the Batch/Decimate Stage is running (R33). -/
  bRun : Bool
  /-- `fault`, sticky (R33). -/
  fault : Bool
  /-- `fault_code`, 0 when `fault` is clear (R33). -/
  faultCode : BitVec 3
  /-- `pub_trace`, every (frame, answer) pair exchanged with the sink, in order (R51). -/
  pubTrace : List (Bytes × PubResult)
  /-- `evt_trace`, every (`drops`, `total`) pair emitted, in order (R51). -/
  evtTrace : List (Word × Word)
  /-- Command interface: the requests the agents have made and the block has not served, in the order of the schedule (R67,
  R101; assumption 1). -/
  requests : List Request
  /-- Command interface: the agent whose request is being executed, or was executed last (R246). -/
  caller : Agent
  /-- Command interface: the answer to that request (R19, R101). -/
  answer : Answer
  /-- Port `NOW_MS`: the readings the environment has listed for the draws to come (R50; assumption 4). -/
  nowIn : List Word
  /-- The model's own count of `NOW_MS` draws, which numbers the free readings. -/
  nowDraws : Nat
  /-- Port `PUB_RESULT`: the codes the environment has listed for the draws to come (R50; assumption 4). -/
  pubIn : List (BitVec 2)
  /-- The model's own count of `PUB_RESULT` draws, which numbers the free codes. -/
  pubDraws : Nat
  /-- Port `PUB_OUT`: what has been emitted on it, (`TOPIC_HINT`, frame) (R50, R214). -/
  pubOut : List (Bytes × Bytes)
  /-- Port `EVT_OUT`: what has been emitted on it, 8 bytes each (R50, R105). -/
  evtOut : List Bytes
  /-- The model's own count of the free values RESET has used (assumption 6). -/
  freeCount : Nat
  deriving DecidableEq, Repr

/-- The faults that end a run of the MODEL. Each is a read of storage that holds no value, which R40 tells a model to treat so,
or an access past a storage space (R37). None can be reached from reset (R125, R191), and each is safe: the model stops where
the spec gives no value. The block's own fatal fault is no constructor here: it is the state of R236, and the machine goes on. -/
inductive Fault where
  /-- RING.TRY_POP or XFER.TICK reads a ring slot that no push has written (R40, R125). Safe. -/
  | unwrittenSlot (index : Nat)
  /-- BSTAGE.STEP decimates a gather buffer with an entry that no pop has written (R40, R29). Safe. -/
  | unwrittenGather
  /-- BSTAGE.STEP gathers at an index outside 0 .. 7, which `GATHER` does not have (R29, R37). Safe. -/
  | noGatherEntry (index : Nat)
  deriving DecidableEq, Repr

/-- The refusals that end a run of the MODEL. What the spec calls refusal (R251) is not one of them: it has the effect R251
gives it, nothing changes, and the run goes on (assumption 3). -/
inductive Refusal where
  /-- An instruction with no meaning yet, raised by exec's arm; no arm raises it in this model. Safe. -/
  | notModelled (mnemonic : String)
  deriving DecidableEq, Repr

/-- The outcome of one operation or one step. -/
abbrev Result := Host.Outcome State Fault Refusal

/-- The state right after reset (R40), of the reference instance, with no request made yet. -/
def State.reset : State :=
  { cfg := Params.reference
    slots := [], wr := 0, rd := 0, overruns := 0
    bq := [], drops := 0, total := 0
    g := 0, gbuf := [], a := 0, acc := [], seqFirstR := 0, ts0 := 0, seq := 0
    sinkNotReady := 0, sinkError := 0
    tRun := true, bRun := true, fault := false, faultCode := 0
    pubTrace := [], evtTrace := []
    requests := [], caller := .H, answer := .idle
    nowIn := [], nowDraws := 0, pubIn := [], pubDraws := 0
    pubOut := [], evtOut := [], freeCount := 0 }

end Sys2Proof.Machine
end

