-- ==== Sys2Proof/Machine/Ops.lean ====
section
/-! DEFINITION. The shared operations: block storage, the command interface, ownership and refusal, the fatal fault and the way
out of it, and the ports. -/

namespace Sys2Proof.Machine

/-! ### Block storage (R37, R60 to R64) -/

/-- The block at an index of a storage space, `none` where the index holds no value (`MemRead`, R14, R40). -/
def Memory.read (m : Memory) (i : Nat) : Option Block :=
  match m with
  | [] => none
  | (j, b) :: rest => if i = j then some b else Memory.read rest i

/-- Write one whole block (`MemWrite`, R14, R62), in place when the index is listed, else in order. -/
def Memory.write (m : Memory) (i : Nat) (b : Block) : Memory :=
  match m with
  | [] => [(i, b)]
  | (j, c) :: rest =>
    if i < j then (i, b) :: (j, c) :: rest
    else if i = j then (i, b) :: rest
    else (j, c) :: Memory.write rest i b

/-- The canonical form of a storage space: indices strictly rising.
An unlisted index holds no value, so no entry can equal what it would read as. -/
def Memory.wf : Memory → Bool
  | [] => true
  | (i, _) :: rest => rest.all (fun e => i < e.1) && Memory.wf rest

/-! ### Ending a request (R19) -/

/-- Record how the request ended. -/
def answerWith (x : Answer) (s : State) : State := { s with answer := x }

/-- Completion with a response payload (R101). -/
def complete (payload : Bytes) (s : State) : Result := .next (answerWith (.completed payload) s)

/-- Refusal: no state change, no output, no result (R251). -/
def refuse (why : RefuseReason) (s : State) : Result := .next (answerWith (.refused why) s)

/-! ### The fatal fault (R236) and RESET, the only way out of it (R237, R261) -/

/-- The code of a shape violation (R231). -/
def shapeViolation : BitVec 3 := 4

/-- Fault entry: `fault <- 1`, `fault_code <- code`, and nothing else (R236). -/
def raiseFault (code : BitVec 3) (s : State) : State := { s with fault := true, faultCode := code }

/-- The raising operation ends there, without any other state change and without a result (R236). -/
def endInFault (code : BitVec 3) (s : State) : Result := .next (answerWith (.faultRaised code) (raiseFault code s))

/-- RESET's effect (R261): every element of the block's state at its reset value.
Storage is emptied, that is, it holds no value; `seq_first_r` and `ts0`, which the spec leaves unspecified, get free values
(assumption 6). Parameters are not touched, nor are the requests, inputs and outputs, which lie outside the block. -/
def toReset (s : State) : State :=
  { s with
    slots := [], wr := 0, rd := 0, overruns := 0
    bq := [], drops := 0, total := 0
    g := 0, gbuf := [], a := 0, acc := []
    seqFirstR := Config.freeWord s.freeCount, ts0 := Config.freeWord (s.freeCount + 1), freeCount := s.freeCount + 2
    seq := 0, sinkNotReady := 0, sinkError := 0
    tRun := true, bRun := true, fault := false, faultCode := 0
    pubTrace := [], evtTrace := [] }

/-! ### Ownership and refusal (R246, R251) -/

/-- The agent that owns an operation (R100, R246). -/
def ownerOf : Instr → Agent
  | .ringPush _ => .P
  | .ringTryPop => .T
  | .ringLevel => .H
  | .bqTryPush _ => .T
  | .bqPop => .B
  | .bqDiscard => .H
  | .xferTick => .T
  | .xferStop => .H
  | .decimate _ => .B
  | .asmAppend _ _ => .B
  | .frameEncode _ _ _ => .B
  | .bstageStep => .B
  | .bstageStop => .H
  | .sinkPublish _ => .B
  | .capDeliver _ => .P
  | .diagRead _ => .H
  | .reset => .H

/-- An operation admitted also while faulted: refused only to a caller that does not own it (R236, R251). -/
def ifOwner (owner : Agent) (s : State) (body : Result) : Result :=
  if s.caller = owner then body else refuse .notOwner s

/-- An operation refused while `fault = 1`, to any caller (R251 (b)). -/
def ifNoFault (s : State) (body : Result) : Result :=
  if s.fault then refuse .faulted s else body

/-- A data operation: refused to a caller that does not own it, and while `fault = 1` (R251 (a), (b)). -/
def ifAdmitted (owner : Agent) (s : State) (body : Result) : Result :=
  ifOwner owner s (ifNoFault s body)

/-- A stage's activation: refused while the stage is stopped (R251 (c)). -/
def ifRunning (running : Bool) (s : State) (body : Result) : Result :=
  if running then body else refuse .stopped s

/-! ### The command interface (R67, R101) -/

/-- The request to serve next, and the state once it is taken: it leaves the list and its agent is the caller. -/
def takeRequest (s : State) : Option (Bytes × State) :=
  match s.requests with
  | [] => none
  | r :: rest => some (r.bytes, { s with requests := rest, caller := r.agent })

/-- Put a message, made by the owner of the operation it stands for, where the next step takes its request. -/
def placeMessage (bytes : Bytes) (s : State) : State :=
  let agent : Agent :=
    match decode s.cfg bytes with
    | .ok i => ownerOf i
    | .bad _ => .H
  { s with requests := { agent := agent, bytes := bytes } :: s.requests }

/-! ### Ports (R50) -/

/-- `draw NOW_MS` (R192, R212): the next listed reading, or a free one. -/
def drawNow (s : State) : Word × State :=
  match s.nowIn with
  | v :: rest => (v, { s with nowIn := rest, nowDraws := s.nowDraws + 1 })
  | [] => (Config.nowMs s.nowDraws, { s with nowDraws := s.nowDraws + 1 })

/-- The answer a `PUB_RESULT` code stands for: 3 is reserved and treated as `error` (R50, R99, D31). -/
def pubResultOfCode (code : BitVec 2) : PubResult :=
  if code = 0 then .ok else if code = 1 then .notReady else .error

/-- `draw PUB_RESULT` (R214): the next listed code, or a free one. -/
def drawPubResult (s : State) : PubResult × State :=
  match s.pubIn with
  | v :: rest => (pubResultOfCode v, { s with pubIn := rest, pubDraws := s.pubDraws + 1 })
  | [] => (pubResultOfCode (Config.pubResult s.pubDraws), { s with pubDraws := s.pubDraws + 1 })

/-- `emit EVT_OUT(drops, total)`, 8 bytes, and the trace entry (R105, R156, R158). -/
def emitEvent (s : State) : State :=
  { s with evtOut := s.evtOut ++ [le32 s.drops ++ le32 s.total], evtTrace := s.evtTrace ++ [(s.drops, s.total)] }

/-- `emit PUB_OUT(TOPIC_HINT, frame)` (R214). -/
def emitFrame (frame : Bytes) (s : State) : State :=
  { s with pubOut := s.pubOut ++ [(s.cfg.topicHint, frame)] }

end Sys2Proof.Machine
end

