-- ==== Sys2Proof/Machine/Operands.lean ====
section
/-! DEFINITION. How operands are assembled (spec/30_encoding.md R81 to R87, R102): samples out of and into their 32-bit slots,
and the parameters as the words the arithmetic uses. -/

namespace Sys2Proof.Machine

/-- `decode_sample(s)`: the low 24 bits, sign-extended from bit 23; bits 31:24 are ignored (R83, R85). -/
def decodeSample (slot : Word) : Int := (slot.extractLsb' 0 24).toInt

/-- `encode_sample(v)`: `v mod 2^24` in bits 23:0, bits 31:24 zero (R84). -/
def encodeSample (v : Int) : Word := (BitVec.ofInt 24 v).setWidth 32

/-- The slot of sample `j` of a block, 4 bytes at offset 4·j (R81). -/
def slotAt (b : Block) (j : Nat) : Word := rdLe32 b (4 * j)

/-- `RING_N` as a 32-bit value (R22, R24). -/
def ringNWord (s : State) : Word := BitVec.ofNat 32 s.cfg.ringN

/-- The ring slot that index `i` addresses, `i mod RING_N` (R22, R23). -/
def slotIndex (s : State) (i : Word) : Nat := i.toNat % s.cfg.ringN

/-- The byte that stands for the sink's answer in a response (R101). -/
def pubResultByte : PubResult → Byte
  | .ok => 0
  | .notReady => 1
  | .error => 2

/-- The response of an operation that may hand out a block: `ok`, then the block when `ok = 1` (R101). -/
def blockResponse : Option Block → Bytes
  | none => [0]
  | some b => 1 :: b

end Sys2Proof.Machine
end

