-- ==== Sys2Proof/Machine/Flags.lean ====
section
/-! DEFINITION. The run and fault flags as software sees them: the `STATUS` word and the diagnostic selectors
(spec/10_state.md R33 to R35). The block has no condition codes (R34). -/

namespace Sys2Proof.Machine

/-- `STATUS`: `fault`, `fault_code`, `t_run`, `b_run`, zero, `g`, zero, `a`, from bit 0 up (R35). -/
def statusWord (s : State) : Word :=
  BitVec.ofNat 16 s.a ++ 0#5 ++ BitVec.ofNat 3 s.g ++ 0#2 ++ BitVec.ofBool s.bRun ++ BitVec.ofBool s.tRun ++ s.faultCode
    ++ BitVec.ofBool s.fault

/-- A count shown in 32 bits; a count that does not fit shows a free value (assumption 12). -/
def diagCount (n : Nat) : Word := if n < 2 ^ 32 then BitVec.ofNat 32 n else Config.wideDiag n

/-- `lag = wr −_32 rd` (R24). -/
def ringLag (s : State) : Word := s.wr - s.rd

/-- `level = min(lag, RING_N)` (R24). -/
def ringLevel (s : State) : Nat := min (ringLag s).toNat s.cfg.ringN

/-- The value of a diagnostic selector, by the table of R35; 0 for the reserved selectors 16 to 255 (R99 (6)). -/
def diagValue (s : State) (sel : Byte) : Word :=
  match sel.toNat with
  | 0 => s.drops
  | 1 => s.total
  | 2 => s.seq
  | 3 => s.wr
  | 4 => s.rd
  | 5 => diagCount (ringLevel s)
  | 6 => diagCount s.bq.length
  | 7 => s.sinkNotReady
  | 8 => s.sinkError
  | 9 => s.overruns
  | 10 => statusWord s
  | 11 => diagCount s.cfg.ringN
  | 12 => diagCount s.cfg.queueDepth
  | 13 => diagCount s.cfg.batchK
  | 14 => s.cfg.sampleRateHz.setWidth 32
  | 15 => s.cfg.devId
  | _ => 0

end Sys2Proof.Machine
end

