-- ==== Sys2Proof/Machine/Assembler.lean ====
section
/-! DEFINITION. The Batch Assembler and the Wire Frame Codec (spec/44_batch_assembler_codec.md, spec/30_encoding.md R88 to R98):
ASM.APPEND, FRAME.ENCODE, and the receiver's view of a frame. -/

namespace Sys2Proof.Machine

/-- The 30 header bytes, field by field (R89, R195). -/
def frameHeader (c : Params) (seqFirst tsMs : Word) : Bytes :=
  [0x4A, 0x51, 0x4D, 0x42]
    ++ [0x02]
    ++ [0x03]
    ++ le16 (BitVec.ofNat 16 Config.headerLenField)
    ++ le32 seqFirst
    ++ le16 (BitVec.ofNat 16 c.batchK)
    ++ le16 (BitVec.ofNat 16 Config.blockBytes)
    ++ le32 tsMs
    ++ le16 c.sampleRateHz
    ++ [0x02]
    ++ [0x18]
    ++ [0x20]
    ++ [0x00]
    ++ le32 c.devId

/-- FRAME.ENCODE as a pure function of its operands and the parameters (R195). -/
def encodeFrame (c : Params) (seqFirst tsMs : Word) (body : Bytes) : Bytes := frameHeader c seqFirst tsMs ++ body

/-- What a receiver reads from a frame (R98). -/
structure FrameFields where
  magic : Bytes
  version : Byte
  flags : Byte
  headerLen : BitVec 16
  seqFirst : Word
  blockCount : BitVec 16
  blockSize : BitVec 16
  tsMs : Word
  sampleRateHz : BitVec 16
  channelCount : Byte
  wordBits : Byte
  slotBits : Byte
  reserved : Byte
  devId : Word
  body : Bytes
  deriving DecidableEq, Repr

/-- The frame decode of R98; the body stands at the fixed offset 30, whatever `header_len` says (R93).
DESIGN CHOICE: of bytes that end before the body does, the body is what is there; of fewer than 30 bytes, where R98 says nothing,
the absent header bytes read as 0 (assumption 20). -/
def decodeFrame (f : Bytes) : FrameFields :=
  { magic := f.take 4
    version := byteAt f 4
    flags := byteAt f 5
    headerLen := rdLe16 f 6
    seqFirst := rdLe32 f 8
    blockCount := rdLe16 f 12
    blockSize := rdLe16 f 14
    tsMs := rdLe32 f 16
    sampleRateHz := rdLe16 f 20
    channelCount := byteAt f 22
    wordBits := byteAt f 23
    slotBits := byteAt f 24
    reserved := byteAt f 25
    devId := rdLe32 f 26
    body := (f.drop 30).take ((rdLe16 f 12).toNat * (rdLe16 f 14).toNat) }

/-- Sample `j` of block `i` of a frame (R96, R98). DESIGN CHOICE: a sample's bytes past the end of the frame read as 0
(assumption 20). -/
def frameSample (f : Bytes) (i j : Nat) : Int :=
  decodeSample (rdLe32 f (30 + (rdLe16 f 14).toNat * i + 4 * j))

/-- Number one Decimated Block and add it to the batch; hand out the frame when the batch is complete (R191). -/
def appendBlock (d : Block) (now : Word) (s : State) : Option Bytes × State :=
  let s1 := if s.a = 0 then { s with seqFirstR := s.seq, ts0 := now } else s
  let s2 := { s1 with acc := s1.acc ++ d, a := s1.a + 1, seq := s1.seq + 1 }
  if s2.a = s2.cfg.batchK then (some (encodeFrame s2.cfg s2.seqFirstR s2.ts0 s2.acc), { s2 with acc := [], a := 0 })
  else (none, s2)

/-- ASM.APPEND (R191), with its shape check (R235). -/
def execAsmAppend (d : Block) (now : Word) (s : State) : Result :=
  ifAdmitted .B s <|
    if d.length = Config.blockBytes then complete (blockResponse (appendBlock d now s).1) (appendBlock d now s).2
    else endInFault shapeViolation s

/-- FRAME.ENCODE as a request (R195). -/
def execFrameEncode (seqFirst tsMs : Word) (body : Bytes) (s : State) : Result :=
  ifAdmitted .B s (complete (encodeFrame s.cfg seqFirst tsMs body) s)

end Sys2Proof.Machine
end

