-- ==== Sys2Proof/Machine/Decimation.lean ====
section
/-! DEFINITION. The Decimation Engine and its arithmetic (spec/43_decimation.md): DECIMATE. -/

namespace Sys2Proof.Machine

/-- `tdiv(s, 8)`, division truncating toward zero (R13, R173). -/
def divByEight (v : Int) : Int := v.tdiv 8

/-- The silent clamp to the sample range (R174). -/
def clamp (v : Int) : Int := min Config.sMax (max Config.sMin v)

/-- The samples of a block in the order of their slots, 4 bytes each, least significant byte first (R81, R83). -/
def samplesOf : Block → List Int
  | b0 :: b1 :: b2 :: b3 :: rest => decodeSample (b3 ++ b2 ++ b1 ++ b0) :: samplesOf rest
  | _ => []

/-- The 128 accumulators after all blocks are added in, lane by lane, exact: any accumulator of 27 bits or more gives them
(R171, R172, R175). -/
def laneSums (blocks : List Block) : List Int :=
  blocks.foldl (fun acc b => List.zipWith (· + ·) acc (samplesOf b)) (List.replicate Config.samples 0)

/-- What a lane puts out for its sum: divide, clamp, repack (R171). -/
def laneOut (sum : Int) : Word := encodeSample (clamp (divByEight sum))

/-- DECIMATE as a pure function of the blocks (R170, R171). -/
def decimateBlocks (blocks : List Block) : Block := (laneSums blocks).flatMap fun v => le32 (laneOut v)

/-- DECIMATE as a request, which B owns (R100, R246, R251 (a)). That anyone may evaluate it (R171) is said of the pure function
`decimateBlocks`, which reads no state (assumption 7). -/
def execDecimate (blocks : List Block) (s : State) : Result := ifAdmitted .B s (complete (decimateBlocks blocks) s)

end Sys2Proof.Machine
end

