-- ==== Sys2Proof/Machine/Queue.lean ====
section
/-! DEFINITION. The Batch Queue (spec/41_batch_queue.md): BQ.TRY_PUSH, BQ.POP, BQ.DISCARD. -/

namespace Sys2Proof.Machine

/-- Append a block if there is room; a full queue stays as it is and the new block is lost (R141, R148). -/
def queuePush (b : Block) (s : State) : Bool × State :=
  if s.bq.length = s.cfg.queueDepth then (false, s) else (true, { s with bq := s.bq ++ [b] })

/-- Remove and return the oldest block; `none`, the timeout, exactly when the queue is empty (R142, R144). -/
def queueTake (s : State) : Option Block × State :=
  match s.bq with
  | [] => (none, s)
  | b :: rest => (some b, { s with bq := rest })

/-- BQ.TRY_PUSH (R141). -/
def execBqTryPush (b : Block) (s : State) : Result :=
  ifAdmitted .T s (complete [if (queuePush b s).1 then 1 else 0] (queuePush b s).2)

/-- BQ.POP (R142). -/
def execBqPop (s : State) : Result :=
  ifAdmitted .B s (complete (blockResponse (queueTake s).1) (queueTake s).2)

/-- BQ.DISCARD: the queue is emptied and nothing is counted (R146). -/
def execBqDiscard (s : State) : Result := ifAdmitted .H s (complete [] { s with bq := [] })

end Sys2Proof.Machine
end

