-- ==== Sys2Proof/Machine/Ring.lean ====
section
/-! DEFINITION. The Capture Ring (spec/40_capture_ring.md): RING.PUSH, RING.TRY_POP, RING.LEVEL. -/

namespace Sys2Proof.Machine

/-- Store a block at `slot[wr mod RING_N]`, then publish the new `wr` (R121); `rd` is neither read nor written. -/
def pushBlock (b : Block) (s : State) : State :=
  { s with slots := s.slots.write (slotIndex s s.wr) b, wr := s.wr + 1 }

/-- A block presented by the producer: the shape check comes first, then the push, which always succeeds (R121, R244). -/
def presentBlock (b : Block) (s : State) : Result :=
  if b.length = Config.blockBytes then complete [] (pushBlock b s) else endInFault shapeViolation s

/-- The catch-up of R122: when `lag > RING_N` the lost blocks are counted if enabled and `rd` moves to the oldest block that is
still retained. -/
def catchUp (s : State) : State :=
  if s.cfg.ringN < (ringLag s).toNat then
    { s with
      overruns := if s.cfg.overrunCountEn then s.overruns + (ringLag s - ringNWord s) else s.overruns
      rd := s.wr - ringNWord s }
  else s

/-- Take the oldest retained unread block (R122); `none`, with no side effect at all, when the ring is empty. -/
def takeFromRing (s : State) : Except Fault (Option Block × State) :=
  if ringLag s = 0 then .ok (none, s)
  else
    let s1 := catchUp s
    match s1.slots.read (slotIndex s1 s1.rd) with
    | none => .error (.unwrittenSlot (slotIndex s1 s1.rd))
    | some b => .ok (some b, { s1 with rd := s1.rd + 1 })

/-- RING.PUSH (R121). -/
def execRingPush (b : Block) (s : State) : Result := ifAdmitted .P s (presentBlock b s)

/-- RING.TRY_POP (R122). -/
def execRingTryPop (s : State) : Result :=
  ifAdmitted .T s <|
    match takeFromRing s with
    | .error f => .fault f
    | .ok (out, s1) => complete (blockResponse out) s1

/-- RING.LEVEL, a diagnostic admitted also while faulted (R123, R236). -/
def execRingLevel (s : State) : Result := ifOwner .H s (complete (le32 (diagCount (ringLevel s))) s)

/-- The unread sequence of R24, oldest first: the blocks that a consumer can still take. -/
def unread (s : State) : List (Option Block) :=
  (List.range (ringLevel s)).map fun i =>
    s.slots.read (slotIndex s (s.wr - BitVec.ofNat 32 (ringLevel s) + BitVec.ofNat 32 i))

end Sys2Proof.Machine
end

