-- ==== Sys2Proof/Machine/BatchStage.lean ====
section
/-! DEFINITION. Capture delivery, the Batch/Decimate Stage and the hand-off to the sink (spec/45_batch_stage.md): CAP.DELIVER,
BSTAGE.STEP, SINK.PUBLISH, BSTAGE.STOP. -/

namespace Sys2Proof.Machine

/-- CAP.DELIVER: nothing captured, or a RING.PUSH of the captured block (R210). -/
def execCapDeliver (opt : Option Block) (s : State) : Result :=
  ifAdmitted .P s <|
    match opt with
    | none => complete [] s
    | some b => presentBlock b s

/-- Offer a frame once and record the exchange (R214). -/
def publish (frame : Bytes) (s : State) : PubResult × State :=
  let s1 := emitFrame frame s
  let (res, s2) := drawPubResult s1
  (res, { s2 with pubTrace := s2.pubTrace ++ [(frame, res)] })

/-- Count a frame the sink did not take (R212, R215); the frame is gone in all three cases. -/
def countAnswer (res : PubResult) (s : State) : State :=
  match res with
  | .ok => s
  | .notReady => { s with sinkNotReady := s.sinkNotReady + 1 }
  | .error => { s with sinkError := s.sinkError + 1 }

/-- SINK.PUBLISH as a request (R214). -/
def execSinkPublish (frame : Bytes) (s : State) : Result :=
  ifAdmitted .B s (complete [pubResultByte (publish frame s).1] (publish frame s).2)

/-- The blocks at indices `i` to `i + n − 1` of a storage space, in order; `none` if one of them holds no value. -/
def readRun (m : Memory) (i : Nat) : Nat → Option (List Block)
  | 0 => some []
  | n + 1 =>
    match m.read i, readRun m (i + 1) n with
    | some b, some bs => some (b :: bs)
    | _, _ => none

/-- `gbuf[0 .. 7]`: the eight gathered blocks in the order they were popped (R29). -/
def gatheredBlocks (m : Memory) : Option (List Block) := readRun m 0 Config.decim

/-- What a step does once a group is complete (R212): decimate, read the clock, append, and publish a finished frame.
DECIMATE's output has 512 bytes (R171), so ASM.APPEND's shape check cannot fail here (R235). -/
def finishGroup (blocks : List Block) (s : State) : State :=
  let (now, s1) := drawNow { s with g := 0 }
  match appendBlock (decimateBlocks blocks) now s1 with
  | (none, s2) => s2
  | (some frame, s2) => countAnswer (publish frame s2).1 (publish frame s2).2

/-- What a step does with the block it popped (R212). -/
def gatherBlock (b : Block) (s : State) : Result :=
  if Config.decim ≤ s.g then .fault (.noGatherEntry s.g)
  else
    let s1 := { s with gbuf := s.gbuf.write s.g b, g := s.g + 1 }
    if s1.g < Config.decim then complete [] s1
    else
      match gatheredBlocks s1.gbuf with
      | none => .fault .unwrittenGather
      | some blocks => complete [] (finishGroup blocks s1)

/-- BSTAGE.STEP: one bounded pop and everything that follows from it (R212). -/
def execBstageStep (s : State) : Result :=
  ifAdmitted .B s <| ifRunning s.bRun s <|
    match queueTake s with
    | (none, s1) => complete [] s1
    | (some b, s1) => gatherBlock b s1

/-- BSTAGE.STOP, admitted also while faulted: the partial group and the partial batch are discarded (R216). -/
def execBstageStop (s : State) : Result :=
  ifOwner .H s (complete [] { s with bRun := false, g := 0, a := 0, acc := [] })

end Sys2Proof.Machine
end

