-- ==== Sys2Proof/Machine/System.lean ====
section
/-! DEFINITION. The system operations DIAG.READ (spec/60_exceptions.md R247) and RESET (spec/70_reset_and_hazards.md R261). -/

namespace Sys2Proof.Machine

/-- DIAG.READ, admitted also while faulted and while stopped (R247). -/
def execDiagRead (sel : Byte) (s : State) : Result := ifOwner .H s (complete (le32 (diagValue s sel)) s)

/-- RESET, admitted in every state (R261). -/
def execReset (s : State) : Result := ifOwner .H s (complete [] (toReset s))

end Sys2Proof.Machine
end

