-- ==== Sys2Proof/Machine/Transfer.lean ====
section
/-! DEFINITION. The Transfer Stage (spec/42_transfer_stage.md): XFER.TICK, XFER.STOP. -/

namespace Sys2Proof.Machine

/-- What a tick does with the block it popped (R156): count it, try to queue it, count a drop, and report when `total`, after
its increment, is a multiple of `EVT_PERIOD`. -/
def forwardBlock (b : Block) (s : State) : State :=
  let s1 := { s with total := s.total + 1 }
  let s2 := (queuePush b s1).2
  let s3 := if (queuePush b s1).1 then s2 else { s2 with drops := s2.drops + 1 }
  if s3.total.toNat % s3.cfg.evtPeriod = 0 then emitEvent s3 else s3

/-- XFER.TICK: at most one block is moved (R156, R161). -/
def execXferTick (s : State) : Result :=
  ifAdmitted .T s <| ifRunning s.tRun s <|
    match takeFromRing s with
    | .error f => .fault f
    | .ok (none, s1) => complete [] s1
    | .ok (some b, s1) => complete [] (forwardBlock b s1)

/-- XFER.STOP, admitted also while faulted (R160). -/
def execXferStop (s : State) : Result := ifOwner .H s (complete [] { s with tRun := false })

end Sys2Proof.Machine
end

