-- ==== Sys2Proof/Machine/Dispatch.lean ====
section
/-! DEFINITION. The dispatch: one arm per operation, each a direct call of its meaning. -/

namespace Sys2Proof.Machine

def exec (i : Instr) (s : State) : Host.Outcome State Fault Refusal :=
  match i with
  | .ringPush b => Sys2Proof.Machine.execRingPush b s
  | .ringTryPop => Sys2Proof.Machine.execRingTryPop s
  | .ringLevel => Sys2Proof.Machine.execRingLevel s
  | .bqTryPush b => Sys2Proof.Machine.execBqTryPush b s
  | .bqPop => Sys2Proof.Machine.execBqPop s
  | .bqDiscard => Sys2Proof.Machine.execBqDiscard s
  | .xferTick => Sys2Proof.Machine.execXferTick s
  | .xferStop => Sys2Proof.Machine.execXferStop s
  | .decimate bs => Sys2Proof.Machine.execDecimate bs s
  | .asmAppend b now => Sys2Proof.Machine.execAsmAppend b now s
  | .frameEncode sf ts body => Sys2Proof.Machine.execFrameEncode sf ts body s
  | .bstageStep => Sys2Proof.Machine.execBstageStep s
  | .bstageStop => Sys2Proof.Machine.execBstageStop s
  | .sinkPublish frame => Sys2Proof.Machine.execSinkPublish frame s
  | .capDeliver opt => Sys2Proof.Machine.execCapDeliver opt s
  | .diagRead sel => Sys2Proof.Machine.execDiagRead sel s
  | .reset => Sys2Proof.Machine.execReset s

end Sys2Proof.Machine
end

