-- ==== Sys2Proof/Machine/Step.lean ====
section
/-! DEFINITION. One step: the request at the head of the schedule is taken, decoded and executed as one indivisible transition
(spec/20_memory.md R66, R67). A message that is no operation is refused (R251 (d), E9); when no request waits, no agent acts. -/

namespace Sys2Proof.Machine

/-- One step of the machine (R66, R67). -/
def step (s : State) : Host.Outcome State Fault Refusal :=
  match takeRequest s with
  | none => .next s
  | some (bytes, s1) =>
    match decode s1.cfg bytes with
    | .ok i => exec i s1
    | .bad e => refuse (.notAnOperation e) s1

/-- The state in which the message that a table word stands for is the next request, made by the operation's owner
(assumption 9). -/
def State.withFetchWord (s : State) (nbits w : Nat) : State := placeMessage (requestOfWord s.cfg nbits w) s

end Sys2Proof.Machine
end

