-- ==== Sys2Proof/Safety.lean ====
section
/-! DEFINITION. What counts as a safe run: the invariant of the block's state, the clean end of a run (spec/70_reset_and_hazards.md
R268), and the words in which the statements speak of refusals and of sequences of operations and requests. -/

namespace Sys2Proof.Machine

/-- The ring holds whole blocks at legal indices, every block still retained unread is really there (R21, R24, R125), and the
overrun counter stays at its reset value unless it is enabled (R25). -/
structure RingInv (s : State) : Prop where
  canonical : s.slots.wf = true
  blocks : ∀ e ∈ s.slots, e.1 < s.cfg.ringN ∧ e.2.length = 512
  retained : ∀ k < ringLevel s, (s.slots.read (slotIndex s (s.wr - 1 - BitVec.ofNat 32 k))).isSome = true
  uncounted : s.cfg.overrunCountEn = false → s.overruns = 0

/-- The queue is bounded and holds whole blocks (R26, R145). -/
structure QueueInv (s : State) : Prop where
  bounded : s.bq.length ≤ s.cfg.queueDepth
  blocks : ∀ b ∈ s.bq, b.length = 512

/-- The gather buffer holds whole blocks at indices 0 .. 7 and has every block gathered so far (R29). -/
structure GatherInv (s : State) : Prop where
  canonical : s.gbuf.wf = true
  blocks : ∀ e ∈ s.gbuf, e.1 < 8 ∧ e.2.length = 512
  count : s.g < 8
  gathered : ∀ i < s.g, (s.gbuf.read i).isSome = true

/-- The partial batch has the length its count says, and its first block's number is the one recorded (R30, R191 (5), R193). -/
structure BatchInv (s : State) : Prop where
  count : s.a < s.cfg.batchK
  bodies : s.acc.length = 512 * s.a
  numbered : 0 < s.a → s.seq = s.seqFirstR + BitVec.ofNat 32 s.a

/-- The invariant of the block: every reachable state has it. -/
structure State.Inv (s : State) : Prop where
  params : s.cfg.legal
  ring : RingInv s
  queue : QueueInv s
  gather : GatherInv s
  batch : BatchInv s
  faultCode : s.faultCode = if s.fault then 4 else 0
  traced : ∀ e ∈ s.pubTrace, e.1.length = 30 + 512 * s.cfg.batchK
  emitted : ∀ e ∈ s.pubOut, e.1 = s.cfg.topicHint ∧ e.2.length = 30 + 512 * s.cfg.batchK

/-- A run has ended cleanly (R268). -/
def State.CleanEnd (s : State) : Prop :=
  s.tRun = false ∧ s.bRun = false ∧ s.bq.length = 0 ∧ s.g = 0 ∧ s.a = 0 ∧ s.fault = false

/-- The operation is refused: the machine goes on, no result is returned, and nothing of the block or its outputs changes (R251). -/
def Refuses (i : Instr) (s : State) : Prop := ∃ why, exec i s = .next { s with answer := .refused why }

/-- Operations executed one after another for one caller, up to the first that does not answer a next state. -/
def execAll : List Instr → State → Result
  | [], s => .next s
  | i :: rest, s =>
    match exec i s with
    | .next t => execAll rest t
    | .fault f => .fault f
    | .refused r => .refused r

/-- The answers to the next `k` requests, in order, up to the first step that does not answer a next state. -/
def answers : Nat → State → List Answer
  | 0, _ => []
  | k + 1, s =>
    match step s with
    | .next t => t.answer :: answers k t
    | .fault _ => []
    | .refused _ => []

end Sys2Proof.Machine
end

