-- ==== Sys2Proof/Certificates/Slice0/Obligations.lean ====
section
/-! DEFINITION. The statements for the provers, in the order of OBLIGATIONS.json. Each docstring names the rule of spec/ it
formalises. A clause that ends in an equation of states is also a frame: whatever it does not name is unchanged.
The field `answer` is the model's: it shows the response payload of R101, or that the request was refused or raised the fault
(assumptions 3 and 8). -/

open Sys2Proof Sys2Proof.Machine

/-! ### The Capture Ring -/

/-- R121. RING.PUSH is refused to all but P and while faulted, faults on a block that is not 512 bytes and stores nothing, and
else always succeeds, whatever the ring holds: slot `wr mod RING_N` holds the block, every other slot is as it was, and `wr`
goes up by one. `rd` is not written. -/
def Obligations.RingPushStoresOrFaults : Prop :=
  ∀ (s : State) (b : Block),
    (s.caller ≠ .P ∨ s.fault = true → Refuses (.ringPush b) s) ∧
    (s.caller = .P → s.fault = false → b.length ≠ 512 →
      exec (.ringPush b) s = .next { s with fault := true, faultCode := 4, answer := .faultRaised 4 }) ∧
    (s.caller = .P → s.fault = false → b.length = 512 →
      ∃ m : Memory, exec (.ringPush b) s = .next { s with slots := m, wr := s.wr + 1, answer := .completed [] } ∧
        ∀ j, m.read j = if j = s.wr.toNat % s.cfg.ringN then some b else s.slots.read j)

/-- R122. RING.TRY_POP is refused to all but T and while faulted; on an empty ring it answers 0 and changes nothing; else it
catches up when more than `RING_N` blocks are unread, answers the block at `rd mod RING_N`, and moves `rd` past it. -/
def Obligations.RingTryPopTakesOldestRetained : Prop :=
  ∀ s : State,
    (s.caller ≠ .T ∨ s.fault = true → Refuses .ringTryPop s) ∧
    (s.caller = .T → s.fault = false → s.rd = s.wr → exec .ringTryPop s = .next { s with answer := .completed [0] }) ∧
    (s.caller = .T → s.fault = false → s.rd ≠ s.wr →
      let n : Word := BitVec.ofNat 32 s.cfg.ringN
      let behind : Prop := s.cfg.ringN < (s.wr - s.rd).toNat
      ∀ (oldest : Word) (lost : Word),
        (behind → oldest = s.wr - n ∧ lost = if s.cfg.overrunCountEn then s.wr - s.rd - n else 0) →
        (¬ behind → oldest = s.rd ∧ lost = 0) →
        ∀ b, s.slots.read (oldest.toNat % s.cfg.ringN) = some b →
          exec .ringTryPop s =
            .next { s with rd := oldest + 1, overruns := s.overruns + lost, answer := .completed (1 :: b) })

/-- R123. RING.LEVEL, for H only and also while faulted, answers `min(wr −_32 rd, RING_N)` and changes nothing. -/
def Obligations.RingLevelAnswersRetainedCount : Prop :=
  ∀ s : State,
    (s.caller ≠ .H → Refuses .ringLevel s) ∧
    (s.caller = .H →
      exec .ringLevel s =
        .next { s with answer := .completed (le32 (BitVec.ofNat 32 (min (s.wr - s.rd).toNat s.cfg.ringN))) })

/-- R126, while fewer than 2^32 pushes are unaccounted for (R24): the ring is the list of its unread blocks, oldest first; a push
appends, and drops the head when `RING_N` blocks are there; a pop takes the head or finds nothing; the level is the length. -/
def Obligations.RingRefinesListOfUnreadBlocks : Prop :=
  ∀ s : State, s.Inv →
    (∀ b : Block, s.caller = .P → s.fault = false → b.length = 512 → (s.wr - s.rd).toNat + 1 < 2 ^ 32 →
      ∃ t, exec (.ringPush b) s = .next t ∧
        unread t = if (unread s).length < s.cfg.ringN then unread s ++ [some b] else (unread s).tail ++ [some b]) ∧
    (s.caller = .T → s.fault = false → unread s = [] → exec .ringTryPop s = .next { s with answer := .completed [0] }) ∧
    (∀ x rest, s.caller = .T → s.fault = false → unread s = x :: rest →
      ∃ b t, x = some b ∧ exec .ringTryPop s = .next t ∧ t.answer = .completed (1 :: b) ∧ unread t = rest) ∧
    (s.caller = .H →
      exec .ringLevel s = .next { s with answer := .completed (le32 (BitVec.ofNat 32 (unread s).length)) })

/-- R127. From an empty ring, N+1 pushes by P and then N+1 pops by T: every push completes, the first N pops return the N blocks
written last in write order, and only the pop after exactly N successes finds nothing. -/
def Obligations.RingWrapLosesExactlyTheOldest : Prop :=
  ∀ (s : State) (oldest : Block) (bs : List Block),
    s.cfg.legal → s.fault = false → s.rd = s.wr → bs.length = s.cfg.ringN → (∀ b ∈ oldest :: bs, b.length = 512) →
    s.requests = (oldest :: bs).map (fun b => ⟨.P, 0x01 :: b⟩) ++ List.replicate (s.cfg.ringN + 1) ⟨.T, [0x02]⟩ →
    answers (2 * (s.cfg.ringN + 1)) s =
      List.replicate (s.cfg.ringN + 1) (.completed []) ++ bs.map (fun b => .completed (1 :: b)) ++ [.completed [0]]

/-! ### The Batch Queue -/

/-- R141. BQ.TRY_PUSH is refused to all but T and while faulted; on a full queue it answers 0 and changes nothing; else it answers 1
and the block stands at the tail. -/
def Obligations.BqTryPushAppendsUnlessFull : Prop :=
  ∀ (s : State) (b : Block),
    (s.caller ≠ .T ∨ s.fault = true → Refuses (.bqTryPush b) s) ∧
    (s.caller = .T → s.fault = false → s.bq.length = s.cfg.queueDepth →
      exec (.bqTryPush b) s = .next { s with answer := .completed [0] }) ∧
    (s.caller = .T → s.fault = false → s.bq.length ≠ s.cfg.queueDepth →
      exec (.bqTryPush b) s = .next { s with bq := s.bq ++ [b], answer := .completed [1] })

/-- R142. BQ.POP is refused to all but B and while faulted; on an empty queue it answers 0 (the timeout) and changes nothing; else
it answers the head and leaves the tail. -/
def Obligations.BqPopTakesTheHead : Prop :=
  ∀ s : State,
    (s.caller ≠ .B ∨ s.fault = true → Refuses .bqPop s) ∧
    (s.caller = .B → s.fault = false → s.bq = [] → exec .bqPop s = .next { s with answer := .completed [0] }) ∧
    (∀ b rest, s.caller = .B → s.fault = false → s.bq = b :: rest →
      exec .bqPop s = .next { s with bq := rest, answer := .completed (1 :: b) })

/-- R146. BQ.DISCARD is refused to all but H and while faulted; else the queue is empty afterwards and no counter moves. -/
def Obligations.BqDiscardEmptiesUncounted : Prop :=
  ∀ s : State,
    (s.caller ≠ .H ∨ s.fault = true → Refuses .bqDiscard s) ∧
    (s.caller = .H → s.fault = false → exec .bqDiscard s = .next { s with bq := [], answer := .completed [] })

/-- R147. From an empty queue, M pushes by T with M at least the capacity, then one pop by B for each of the first `QUEUE_DEPTH`
items and one more: exactly M − capacity pushes fail, the items come back in FIFO order, and the next pop times out. -/
def Obligations.DropAccountingKeepsTheOldest : Prop :=
  ∀ (s : State) (kept lost : List Block),
    s.fault = false → s.bq = [] → kept.length = s.cfg.queueDepth → (∀ b ∈ kept ++ lost, b.length = 512) →
    s.requests = (kept ++ lost).map (fun b => ⟨.T, 0x11 :: b⟩) ++ List.replicate (s.cfg.queueDepth + 1) ⟨.B, [0x12]⟩ →
    answers (kept.length + lost.length + (s.cfg.queueDepth + 1)) s =
      List.replicate kept.length (.completed [1]) ++ List.replicate lost.length (.completed [0])
        ++ kept.map (fun b => .completed (1 :: b)) ++ [.completed [0]]

/-! ### The Transfer Stage -/

/-- R156. XFER.TICK is refused to all but T, while faulted and while stopped; on an empty ring it does nothing; else it pops one
block as RING.TRY_POP does, counts it in `total`, queues it or counts a drop, and reports (`drops`, `total`), both already
counting this tick, exactly when `total` is now a multiple of `EVT_PERIOD`. -/
def Obligations.XferTickMovesOneBlock : Prop :=
  ∀ s : State,
    (s.caller ≠ .T ∨ s.fault = true ∨ s.tRun = false → Refuses .xferTick s) ∧
    (s.caller = .T → s.fault = false → s.tRun = true → s.rd = s.wr →
      exec .xferTick s = .next { s with answer := .completed [] }) ∧
    (s.caller = .T → s.fault = false → s.tRun = true → s.rd ≠ s.wr →
      let n : Word := BitVec.ofNat 32 s.cfg.ringN
      let behind : Prop := s.cfg.ringN < (s.wr - s.rd).toNat
      let full : Prop := s.bq.length = s.cfg.queueDepth
      let report : Prop := (s.total + 1).toNat % s.cfg.evtPeriod = 0
      ∀ (oldest lost drops : Word) (bq : List Block) (evtOut : List Bytes) (evtTrace : List (Word × Word)) (b : Block),
        (behind → oldest = s.wr - n ∧ lost = if s.cfg.overrunCountEn then s.wr - s.rd - n else 0) →
        (¬ behind → oldest = s.rd ∧ lost = 0) →
        s.slots.read (oldest.toNat % s.cfg.ringN) = some b →
        (full → bq = s.bq ∧ drops = s.drops + 1) → (¬ full → bq = s.bq ++ [b] ∧ drops = s.drops) →
        (report → evtTrace = s.evtTrace ++ [(drops, s.total + 1)] ∧
          evtOut = s.evtOut ++ [le32 drops ++ le32 (s.total + 1)]) →
        (¬ report → evtTrace = s.evtTrace ∧ evtOut = s.evtOut) →
        exec .xferTick s =
          .next { s with rd := oldest + 1, overruns := s.overruns + lost, bq := bq, drops := drops, total := s.total + 1,
                         evtTrace := evtTrace, evtOut := evtOut, answer := .completed [] })

/-- R160. XFER.STOP, for H only and also while faulted, clears `t_run` and changes nothing else. -/
def Obligations.XferStopClearsTRun : Prop :=
  ∀ s : State,
    (s.caller ≠ .H → Refuses .xferStop s) ∧
    (s.caller = .H → exec .xferStop s = .next { s with tRun := false, answer := .completed [] })

/-- R162, for one tick: every block that leaves the ring's count is overwritten, dropped or queued. -/
def Obligations.TickAccountsForEveryBlock : Prop :=
  ∀ s t : State, s.cfg.legal → exec .xferTick s = .next t →
    (s.wr - s.rd).toNat = (t.wr - t.rd).toNat + (t.total - s.total).toNat
        + (if t.total = s.total then 0 else (s.wr - s.rd).toNat - s.cfg.ringN) ∧
      (t.total - s.total).toNat = (t.drops - s.drops).toNat + (t.bq.length - s.bq.length)

/-! ### The Decimation Engine -/

/-- R171, R172. DECIMATE is refused to all but B (R246, R251; assumption 7 on R171's "by anyone") and while faulted; else, of eight
512-byte blocks, it answers one 512-byte block whose sample `j` is the sum of the eight samples at the same position `j`, divided
by 8 toward zero, clamped, repacked with the high byte zero; nothing else changes. -/
def Obligations.DecimateAveragesLaneByLane : Prop :=
  ∀ (s : State) (bs : List Block),
    (s.caller ≠ .B ∨ s.fault = true → Refuses (.decimate bs) s) ∧
    (s.caller = .B → s.fault = false → bs.length = 8 → (∀ b ∈ bs, b.length = 512) →
      ∃ out : Block, exec (.decimate bs) s = .next { s with answer := .completed out } ∧ out.length = 512 ∧
        ∀ j < 128,
          rdLe32 out (4 * j) =
            (BitVec.ofInt 24
              (min 8388607 (max (-8388608)
                (((bs.map fun b => ((rdLe32 b (4 * j)).extractLsb' 0 24).toInt).sum).tdiv 8)))).setWidth 32)

/-- R87. Decode then encode gives the low 24 bits back with the high byte zeroed; encode then decode gives every sample back. -/
def Obligations.SampleRoundTrip : Prop :=
  (∀ w : Word, encodeSample (decodeSample w) = w &&& 0x00FFFFFF#32) ∧
    ∀ v : Int, -8388608 ≤ v → v ≤ 8388607 → decodeSample (encodeSample v) = v

/-- R173. The division by 8 truncates toward zero: the floor forms, the shift form, and the remainder's sign and size. -/
def Obligations.DivisionTruncatesTowardZero : Prop :=
  ∀ v : Int,
    (0 ≤ v → divByEight v = v / 8) ∧ (v < 0 → divByEight v = -((-v) / 8) ∧ divByEight v = (v + 7) / 8) ∧
      divByEight v = (v + if v < 0 then 7 else 0) >>> (3 : Nat) ∧
      (0 ≤ v → 0 ≤ v - 8 * divByEight v ∧ v - 8 * divByEight v ≤ 7) ∧
      (v ≤ 0 → -7 ≤ v - 8 * divByEight v ∧ v - 8 * divByEight v ≤ 0)

/-- R174, R175. The sum of eight samples stays in −2^26 .. 2^26 − 8, which 27 bits hold, and the clamp never changes the quotient. -/
def Obligations.EightSamplesNeverOverflowOrClamp : Prop :=
  ∀ ws : List Word, ws.length = 8 →
    -(2 ^ 26) ≤ (ws.map decodeSample).sum ∧ (ws.map decodeSample).sum ≤ 2 ^ 26 - 8 ∧
      clamp (divByEight (ws.map decodeSample).sum) = divByEight (ws.map decodeSample).sum

/-- R178. The engine's laws: bounds by the inputs, odd symmetry, permutation of the blocks, error below one and never away from
zero, and high bytes zero. -/
def Obligations.DecimationLaws : Prop :=
  (∀ xs : List Int, xs.length = 8 → (∀ x ∈ xs, -8388608 ≤ x ∧ x ≤ 8388607) →
    (∀ lo hi : Int, (∀ x ∈ xs, lo ≤ x ∧ x ≤ hi) → lo ≤ clamp (divByEight xs.sum) ∧ clamp (divByEight xs.sum) ≤ hi) ∧
    ((∀ x ∈ xs, x ≠ -8388608) →
      clamp (divByEight (xs.map fun x => -x).sum) = -clamp (divByEight xs.sum)) ∧
    |8 * clamp (divByEight xs.sum) - xs.sum| < 8 ∧ |8 * clamp (divByEight xs.sum)| ≤ |xs.sum|) ∧
  (∀ bs bs' : List Block, bs.Perm bs' → decimateBlocks bs = decimateBlocks bs') ∧
  (∀ v : Int, (encodeSample v).extractLsb' 24 8 = 0)

/-- R177. The source's properties of the engine: a lane of eight equal samples gives that sample (the greatest one included, so no
sign bit overflows); eight copies of a block give it back with every high byte zeroed; a lane that alternates the extremes
gives 0. -/
def Obligations.EqualSamplesDecimateToThemselves : Prop :=
  (∀ (bs : List Block) (j : Nat) (w : Word), bs.length = 8 → (∀ b ∈ bs, b.length = 512) → j < 128 →
    (∀ b ∈ bs, rdLe32 b (4 * j) = w) → rdLe32 (decimateBlocks bs) (4 * j) = w &&& 0x00FFFFFF#32) ∧
  (∀ b : Block, b.length = 512 →
    (decimateBlocks (List.replicate 8 b)).length = 512 ∧
      ∀ j < 128, rdLe32 (decimateBlocks (List.replicate 8 b)) (4 * j) = rdLe32 b (4 * j) &&& 0x00FFFFFF#32) ∧
  (∀ hi lo : Block, hi.length = 512 → lo.length = 512 → ∀ j < 128,
    rdLe32 hi (4 * j) = 0x007FFFFF#32 → rdLe32 lo (4 * j) = 0x00800000#32 →
    rdLe32 (decimateBlocks [hi, lo, hi, lo, hi, lo, hi, lo]) (4 * j) = 0)

/-- R85. The high byte of an input slot does not matter: blocks that agree in the low 24 bits of every slot decimate alike. -/
def Obligations.DecimationIgnoresHighBytes : Prop :=
  ∀ bs bs' : List Block,
    List.Forall₂ (fun b b' : Block => b.length = 512 ∧ b'.length = 512 ∧
      ∀ j < 128, (rdLe32 b (4 * j)).extractLsb' 0 24 = (rdLe32 b' (4 * j)).extractLsb' 0 24) bs bs' →
    decimateBlocks bs = decimateBlocks bs'

/-! ### The Batch Assembler and the Wire Frame Codec -/

/-- R191. ASM.APPEND is refused to all but B and while faulted, and faults on a block that is not 512 bytes; else the block is
appended and numbered, the first block of a batch records its number and the clock, `seq` goes up by exactly one, and the
block that completes the batch hands out the frame and resets the accumulator. -/
def Obligations.AsmAppendNumbersAndCompletes : Prop :=
  ∀ (s : State) (d : Block) (now : Word),
    (s.caller ≠ .B ∨ s.fault = true → Refuses (.asmAppend d now) s) ∧
    (s.caller = .B → s.fault = false → d.length ≠ 512 →
      exec (.asmAppend d now) s = .next { s with fault := true, faultCode := 4, answer := .faultRaised 4 }) ∧
    (s.caller = .B → s.fault = false → d.length = 512 → ∀ first ts : Word,
      (s.a = 0 → first = s.seq ∧ ts = now) → (s.a ≠ 0 → first = s.seqFirstR ∧ ts = s.ts0) →
      (s.a + 1 ≠ s.cfg.batchK →
        exec (.asmAppend d now) s =
          .next { s with seqFirstR := first, ts0 := ts, acc := s.acc ++ d, a := s.a + 1, seq := s.seq + 1,
                         answer := .completed [0] }) ∧
      (s.a + 1 = s.cfg.batchK →
        exec (.asmAppend d now) s =
          .next { s with seqFirstR := first, ts0 := ts, acc := [], a := 0, seq := s.seq + 1,
                         answer := .completed (1 :: encodeFrame s.cfg first ts (s.acc ++ d)) }))

/-- R195. FRAME.ENCODE is refused to all but B and while faulted; else it answers the 30 header bytes of R89 and the body, and
changes nothing. -/
def Obligations.FrameEncodeAnswersHeaderAndBody : Prop :=
  ∀ (s : State) (seqFirst tsMs : Word) (body : Bytes),
    (s.caller ≠ .B ∨ s.fault = true → Refuses (.frameEncode seqFirst tsMs body) s) ∧
    (s.caller = .B → s.fault = false →
      exec (.frameEncode seqFirst tsMs body) s =
        .next { s with answer := .completed (
          [0x4A, 0x51, 0x4D, 0x42, 0x02, 0x03, 0x18, 0x00] ++ le32 seqFirst ++ le16 (BitVec.ofNat 16 s.cfg.batchK)
            ++ [0x00, 0x02] ++ le32 tsMs ++ le16 s.cfg.sampleRateHz ++ [0x02, 0x18, 0x20, 0x00] ++ le32 s.cfg.devId
            ++ body) })

/-- R98. A receiver reads from a frame exactly the values it was built from, with the body at the fixed offset 30. -/
def Obligations.FrameDecodesToWhatItWasBuiltFrom : Prop :=
  ∀ (c : Params) (seqFirst tsMs : Word) (body : Bytes), c.legal → body.length = 512 * c.batchK →
    decodeFrame (encodeFrame c seqFirst tsMs body) =
      { magic := [0x4A, 0x51, 0x4D, 0x42], version := 2, flags := 3, headerLen := 24, seqFirst := seqFirst,
        blockCount := BitVec.ofNat 16 c.batchK, blockSize := 512, tsMs := tsMs, sampleRateHz := c.sampleRateHz,
        channelCount := 2, wordBits := 24, slotBits := 32, reserved := 0, devId := c.devId, body := body } ∧
    (∀ i < c.batchK, ∀ j < 128,
      frameSample (encodeFrame c seqFirst tsMs body) i j = decodeSample (rdLe32 body (512 * i + 4 * j)))

/-- R190, R193. From an empty accumulator, `BATCH_K` blocks appended one after another make exactly one frame: every append before the
last answers that the batch is incomplete, and the last hands out the frame, numbered from the `seq` at the start, stamped with the
first reading, its body the blocks in order; `seq` has gone up by `BATCH_K`. -/
def Obligations.BatchOfAppendsMakesOneFrame : Prop :=
  ∀ (s : State) (ds : List (Block × Word)) (d₀ : Block) (now₀ : Word),
    s.caller = .B → s.fault = false → s.a = 0 → s.acc = [] → ds.length + 1 = s.cfg.batchK →
    (∀ e ∈ (d₀, now₀) :: ds, e.1.length = 512) →
    (∀ k, 1 ≤ k → k ≤ ds.length →
      ∃ t, execAll ((((d₀, now₀) :: ds).take k).map fun e => .asmAppend e.1 e.2) s = .next t ∧ t.answer = .completed [0]) ∧
    ∃ t, execAll (((d₀, now₀) :: ds).map fun e => .asmAppend e.1 e.2) s = .next t ∧
      t.answer = .completed (1 :: encodeFrame s.cfg s.seq now₀ (((d₀, now₀) :: ds).map Prod.fst).flatten) ∧
      t.a = 0 ∧ t.acc = [] ∧ t.seq = s.seq + BitVec.ofNat 32 s.cfg.batchK

/-! ### Capture delivery, the Batch/Decimate Stage and the sink -/

/-- R210. CAP.DELIVER is refused to all but P and while faulted; with no block it does nothing; with a block it does what RING.PUSH
does, the fault on a block that is not 512 bytes included. -/
def Obligations.CapDeliverPushesWhatWasCaptured : Prop :=
  ∀ s : State,
    (∀ opt, s.caller ≠ .P ∨ s.fault = true → Refuses (.capDeliver opt) s) ∧
    (s.caller = .P → s.fault = false → exec (.capDeliver none) s = .next { s with answer := .completed [] }) ∧
    (∀ b, s.caller = .P → s.fault = false → b.length ≠ 512 →
      exec (.capDeliver (some b)) s = .next { s with fault := true, faultCode := 4, answer := .faultRaised 4 }) ∧
    (∀ b, s.caller = .P → s.fault = false → b.length = 512 →
      ∃ m : Memory, exec (.capDeliver (some b)) s = .next { s with slots := m, wr := s.wr + 1, answer := .completed [] } ∧
        ∀ j, m.read j = if j = s.wr.toNat % s.cfg.ringN then some b else s.slots.read j)

/-- R212. BSTAGE.STEP is refused to all but B, while faulted and while stopped; on an empty queue it times out and changes nothing;
with fewer than eight blocks gathered it gathers one more; with the eighth it decimates the group, appends the result, and on
a completed batch publishes the frame once and counts an answer that is not `ok`.
The clock reading and the sink's code are the next listed inputs, or free values. -/
def Obligations.BstageStepGathersDecimatesPublishes : Prop :=
  ∀ s : State,
    (s.caller ≠ .B ∨ s.fault = true ∨ s.bRun = false → Refuses .bstageStep s) ∧
    (s.caller = .B → s.fault = false → s.bRun = true → s.bq = [] →
      exec .bstageStep s = .next { s with answer := .completed [] }) ∧
    (∀ b rest, s.caller = .B → s.fault = false → s.bRun = true → s.bq = b :: rest → s.g < 7 →
      ∃ m : Memory,
        exec .bstageStep s = .next { s with bq := rest, gbuf := m, g := s.g + 1, answer := .completed [] } ∧
        ∀ j, m.read j = if j = s.g then some b else s.gbuf.read j) ∧
    (∀ b rest gathered, s.caller = .B → s.fault = false → s.bRun = true → s.bq = b :: rest → s.g = 7 →
      gathered.length = 7 → (∀ i < 7, s.gbuf.read i = gathered[i]?) →
      let d := decimateBlocks (gathered ++ [b])
      let now := s.nowIn.headD (Config.nowMs s.nowDraws)
      let first := if s.a = 0 then s.seq else s.seqFirstR
      let ts := if s.a = 0 then now else s.ts0
      let frame := encodeFrame s.cfg first ts (s.acc ++ d)
      let code := s.pubIn.headD (Config.pubResult s.pubDraws)
      let res : PubResult := if code = 0 then .ok else if code = 1 then .notReady else .error
      ∃ m : Memory, (∀ j, m.read j = if j = 7 then some b else s.gbuf.read j) ∧
        (s.a + 1 ≠ s.cfg.batchK →
          exec .bstageStep s =
            .next { s with bq := rest, gbuf := m, g := 0, nowIn := s.nowIn.tail, nowDraws := s.nowDraws + 1,
                           seqFirstR := first, ts0 := ts, acc := s.acc ++ d, a := s.a + 1, seq := s.seq + 1,
                           answer := .completed [] }) ∧
        (s.a + 1 = s.cfg.batchK →
          exec .bstageStep s =
            .next { s with bq := rest, gbuf := m, g := 0, nowIn := s.nowIn.tail, nowDraws := s.nowDraws + 1,
                           seqFirstR := first, ts0 := ts, acc := [], a := 0, seq := s.seq + 1,
                           pubIn := s.pubIn.tail, pubDraws := s.pubDraws + 1,
                           pubOut := s.pubOut ++ [(s.cfg.topicHint, frame)], pubTrace := s.pubTrace ++ [(frame, res)],
                           sinkNotReady := if res = .notReady then s.sinkNotReady + 1 else s.sinkNotReady,
                           sinkError := if res = .error then s.sinkError + 1 else s.sinkError,
                           answer := .completed [] }))

/-- R196, R218. From an empty group and an empty batch, 8·`BATCH_K` steps on as many queued blocks offer the sink exactly one frame:
numbered from the `seq` at the start, stamped with the first reading drawn, its body the Decimated Blocks of the groups of
eight in order; `seq` has gone up by `BATCH_K`, and the rest of the queue is untouched. -/
def Obligations.PipelineMakesOneFrameOfEightKBlocks : Prop :=
  ∀ (s : State) (groups : List (List Block)) (rest : List Block),
    s.Inv → s.caller = .B → s.fault = false → s.bRun = true → s.g = 0 → s.a = 0 →
    groups.length = s.cfg.batchK → (∀ grp ∈ groups, grp.length = 8) → s.bq = groups.flatten ++ rest →
    ∃ t res, execAll (List.replicate (8 * s.cfg.batchK) .bstageStep) s = .next t ∧
      t.pubTrace = s.pubTrace ++
        [(encodeFrame s.cfg s.seq (s.nowIn.headD (Config.nowMs s.nowDraws)) (groups.map decimateBlocks).flatten, res)] ∧
      t.bq = rest ∧ t.g = 0 ∧ t.a = 0 ∧ t.seq = s.seq + BitVec.ofNat 32 s.cfg.batchK

/-- R214. SINK.PUBLISH is refused to all but B and while faulted; else the frame goes out once with `TOPIC_HINT`, the answer is the
next listed code or a free one, with 3 read as `error`, and the pair is recorded; no counter moves. -/
def Obligations.SinkPublishOffersOnceAndRecords : Prop :=
  ∀ (s : State) (frame : Bytes),
    (s.caller ≠ .B ∨ s.fault = true → Refuses (.sinkPublish frame) s) ∧
    (s.caller = .B → s.fault = false →
      let code := s.pubIn.headD (Config.pubResult s.pubDraws)
      ∀ (res : PubResult) (byte : Byte),
        (code = 0 → res = .ok ∧ byte = 0) → (code = 1 → res = .notReady ∧ byte = 1) →
        (code = 2 ∨ code = 3 → res = .error ∧ byte = 2) →
        exec (.sinkPublish frame) s =
          .next { s with pubOut := s.pubOut ++ [(s.cfg.topicHint, frame)], pubTrace := s.pubTrace ++ [(frame, res)],
                         pubIn := s.pubIn.tail, pubDraws := s.pubDraws + 1, answer := .completed [byte] })

/-- R216. BSTAGE.STOP, for H only and also while faulted, clears `b_run` and discards the partial group and the partial batch; `seq`
and the counters are unchanged. -/
def Obligations.BstageStopDiscardsPartialBatch : Prop :=
  ∀ s : State,
    (s.caller ≠ .H → Refuses .bstageStop s) ∧
    (s.caller = .H →
      exec .bstageStop s = .next { s with bRun := false, g := 0, a := 0, acc := [], answer := .completed [] })

/-! ### Diagnostics, reset, the fault and ownership -/

/-- R247, by the table of R35. DIAG.READ, for H only and also while faulted, answers the selected value in 4 bytes and changes
nothing; the reserved selectors read 0. (What a count of 2^32 or more shows is left free; assumption 12.) -/
def Obligations.DiagReadAnswersTheSelectedValue : Prop :=
  ∀ (s : State) (sel : Byte),
    (s.caller ≠ .H → Refuses (.diagRead sel) s) ∧
    (s.caller = .H → ∃ v : Word, exec (.diagRead sel) s = .next { s with answer := .completed (le32 v) } ∧
      (sel = 0 → v = s.drops) ∧ (sel = 1 → v = s.total) ∧ (sel = 2 → v = s.seq) ∧ (sel = 3 → v = s.wr) ∧
      (sel = 4 → v = s.rd) ∧ (sel = 5 → v.toNat = min (s.wr - s.rd).toNat s.cfg.ringN) ∧
      (sel = 6 → s.bq.length < 2 ^ 32 → v.toNat = s.bq.length) ∧ (sel = 7 → v = s.sinkNotReady) ∧
      (sel = 8 → v = s.sinkError) ∧ (sel = 9 → v = s.overruns) ∧
      (sel = 10 →
        v.getLsbD 0 = s.fault ∧ v.extractLsb' 1 3 = s.faultCode ∧ v.getLsbD 4 = s.tRun ∧ v.getLsbD 5 = s.bRun ∧
        v.extractLsb' 6 2 = 0 ∧ (s.g < 8 → (v.extractLsb' 8 3).toNat = s.g) ∧ v.extractLsb' 11 5 = 0 ∧
        (s.a < 65536 → (v.extractLsb' 16 16).toNat = s.a)) ∧
      (sel = 11 → s.cfg.ringN < 2 ^ 32 → v.toNat = s.cfg.ringN) ∧
      (sel = 12 → s.cfg.queueDepth < 2 ^ 32 → v.toNat = s.cfg.queueDepth) ∧
      (sel = 13 → s.cfg.batchK < 2 ^ 32 → v.toNat = s.cfg.batchK) ∧
      (sel = 14 → v.toNat = s.cfg.sampleRateHz.toNat) ∧ (sel = 15 → v = s.cfg.devId) ∧ (16 ≤ sel.toNat → v = 0))

/-- R261. RESET, for H only and admitted in every state, puts the block's state at its reset values; the parameters, the requests
waiting and what was emitted stay, and the two registers that the spec leaves unspecified get values it does not say
(assumption 6). -/
def Obligations.ResetPutsEveryElementAtItsResetValue : Prop :=
  ∀ s : State,
    (s.caller ≠ .H → Refuses .reset s) ∧
    (s.caller = .H → ∃ (x y : Word) (n : Nat),
      exec .reset s =
        .next { s with
          slots := [], wr := 0, rd := 0, overruns := 0, bq := [], drops := 0, total := 0, g := 0, gbuf := [], a := 0,
          acc := [], seq := 0, sinkNotReady := 0, sinkError := 0, tRun := true, bRun := true, fault := false,
          faultCode := 0, pubTrace := [], evtTrace := [], seqFirstR := x, ts0 := y, freeCount := n,
          answer := .completed [] })

/-- R40, R260. The state right after reset has the values the spec gives, and no storage index holds a value. -/
def Obligations.ResetStateHasTheGivenValues : Prop :=
  let s := State.reset
  s.wr = 0 ∧ s.rd = 0 ∧ s.overruns = 0 ∧ s.bq = [] ∧ s.drops = 0 ∧ s.total = 0 ∧ s.g = 0 ∧ s.a = 0 ∧ s.acc = [] ∧ s.seq = 0 ∧
    s.sinkNotReady = 0 ∧ s.sinkError = 0 ∧ s.tRun = true ∧ s.bRun = true ∧ s.fault = false ∧ s.faultCode = 0 ∧
    s.pubTrace = [] ∧ s.evtTrace = [] ∧ ∀ i, s.slots.read i = none ∧ s.gbuf.read i = none

/-- R236. Raising the fault writes `fault` and `fault_code` and nothing else; while it stands every operation but five is refused, the
five complete for H; and no operation but RESET clears it. -/
def Obligations.FaultIsPreciseStickyAndRefusesAllButFive : Prop :=
  (∀ i s t, exec i s = .next t → s.fault = false → t.fault = true →
    t = { s with fault := true, faultCode := 4, answer := .faultRaised 4 }) ∧
  (∀ i s, s.fault = true →
    i ≠ .ringLevel → i ≠ .xferStop → i ≠ .bstageStop → (∀ sel, i ≠ .diagRead sel) → i ≠ .reset → Refuses i s) ∧
  (∀ i s, s.fault = true → s.caller = .H →
    (i = .ringLevel ∨ i = .xferStop ∨ i = .bstageStop ∨ (∃ sel, i = .diagRead sel) ∨ i = .reset) →
    ∃ t p, exec i s = .next t ∧ t.answer = .completed p) ∧
  (∀ i s t, exec i s = .next t → s.fault = true → i ≠ .reset → t.fault = true)

/-- R251 (a), with the owners of R246 and R100: an operation called by an agent that does not own it is refused, in every state.
DECIMATE is one of them (assumption 7). -/
def Obligations.OnlyTheOwnerIsServed : Prop :=
  ∀ (i : Instr) (s : State),
    (match i with
      | .ringPush _ => s.caller ≠ .P
      | .capDeliver _ => s.caller ≠ .P
      | .ringTryPop => s.caller ≠ .T
      | .bqTryPush _ => s.caller ≠ .T
      | .xferTick => s.caller ≠ .T
      | .bqPop => s.caller ≠ .B
      | .asmAppend _ _ => s.caller ≠ .B
      | .frameEncode _ _ _ => s.caller ≠ .B
      | .bstageStep => s.caller ≠ .B
      | .sinkPublish _ => s.caller ≠ .B
      | .ringLevel => s.caller ≠ .H
      | .bqDiscard => s.caller ≠ .H
      | .xferStop => s.caller ≠ .H
      | .bstageStop => s.caller ≠ .H
      | .diagRead _ => s.caller ≠ .H
      | .reset => s.caller ≠ .H
      | .decimate _ => s.caller ≠ .B) →
    Refuses i s

/-- R39. Who may write what: each element of the state changes only in an operation of its one writer, with RESET by H and
BSTAGE.STOP's discard as the only others. -/
def Obligations.EachElementHasOneWriter : Prop :=
  ∀ (i : Instr) (s t : State), exec i s = .next t →
    let reset : Prop := s.caller = .H ∧ i = .reset
    (t.slots ≠ s.slots ∨ t.wr ≠ s.wr → s.caller = .P ∨ reset) ∧
    (t.rd ≠ s.rd ∨ t.overruns ≠ s.overruns ∨ t.drops ≠ s.drops ∨ t.total ≠ s.total → s.caller = .T ∨ reset) ∧
    (t.bq ≠ s.bq →
      (s.caller = .T ∧ ∃ b, t.bq = s.bq ++ [b]) ∨ (s.caller = .B ∧ ∃ b, s.bq = b :: t.bq) ∨
        (s.caller = .H ∧ i = .bqDiscard ∧ t.bq = []) ∨ reset) ∧
    (t.gbuf ≠ s.gbuf ∨ t.seqFirstR ≠ s.seqFirstR ∨ t.ts0 ≠ s.ts0 ∨ t.seq ≠ s.seq ∨ t.sinkNotReady ≠ s.sinkNotReady ∨
      t.sinkError ≠ s.sinkError → s.caller = .B ∨ reset) ∧
    (t.g ≠ s.g ∨ t.a ≠ s.a ∨ t.acc ≠ s.acc → s.caller = .B ∨ (s.caller = .H ∧ i = .bstageStop) ∨ reset) ∧
    (t.tRun ≠ s.tRun ∨ t.bRun ≠ s.bRun → s.caller = .H) ∧
    (t.fault ≠ s.fault ∨ t.faultCode ≠ s.faultCode →
      reset ∨ ((s.caller = .P ∨ s.caller = .B) ∧ t.fault = true ∧ t.faultCode = 4))

/-- R160, R216, R266. A stopped stage stays stopped, whatever is executed, until RESET. -/
def Obligations.OnlyResetRestartsAStage : Prop :=
  ∀ (i : Instr) (s t : State), exec i s = .next t → i ≠ .reset →
    (s.tRun = false → t.tRun = false) ∧ (s.bRun = false → t.bRun = false)

/-- R193. The sequence counter goes up by exactly one per Decimated Block appended and by nothing else, but for RESET. A block is
appended by an ASM.APPEND that completes, and by the BSTAGE.STEP that gathers the eighth block of a group, and then it joins the
batch or completes it. Else `seq` is unchanged, and so is the partial batch, but for BSTAGE.STOP, which discards it (R216). -/
def Obligations.SequenceAdvancesOncePerDecimatedBlock : Prop :=
  ∀ (i : Instr) (s t : State), exec i s = .next t → i ≠ .reset →
    let appended : Prop :=
      ((∃ d now, i = .asmAppend d now) ∧ ∃ p, t.answer = .completed p) ∨ (i = .bstageStep ∧ s.g = 7 ∧ t.g = 0)
    (¬ appended → t.seq = s.seq ∧ ((t.a = s.a ∧ t.acc = s.acc) ∨ (i = .bstageStop ∧ t.a = 0 ∧ t.acc = []))) ∧
    (appended → t.seq = s.seq + 1 ∧ ∃ d : Block,
      (((∃ now, i = .asmAppend d now) ∧ d.length = 512) ∨
        (i = .bstageStep ∧ (∃ bs, gatheredBlocks t.gbuf = some bs ∧ d = decimateBlocks bs) ∧ (s.Inv → d.length = 512))) ∧
      ((s.a + 1 ≠ s.cfg.batchK ∧ t.a = s.a + 1 ∧ t.acc = s.acc ++ d) ∨
        (s.a + 1 = s.cfg.batchK ∧ t.a = 0 ∧ t.acc = [])))

/-- R51, R197. What was emitted is never taken back: the traces and the output ports only grow at their end, but that RESET empties
the traces. -/
def Obligations.EmittedHistoryOnlyGrows : Prop :=
  ∀ (i : Instr) (s t : State), exec i s = .next t →
    s.pubOut <+: t.pubOut ∧ s.evtOut <+: t.evtOut ∧
      (i ≠ .reset → s.pubTrace <+: t.pubTrace ∧ s.evtTrace <+: t.evtTrace)

/-- R9. No step changes the parameters. -/
def Obligations.ParametersNeverChange : Prop := ∀ s t : State, step s = .next t → t.cfg = s.cfg

/-- R267, R268. Stopping T, discarding the queue and stopping B, in this order and for H, ends a run cleanly from every state without
a fault, and changes nothing that was emitted and no counter. -/
def Obligations.ShutdownInOrderEndsCleanly : Prop :=
  ∀ s : State, s.caller = .H → s.fault = false →
    ∃ t, execAll [.xferStop, .bqDiscard, .bstageStop] s = .next t ∧ t.CleanEnd ∧
      t = { s with tRun := false, bRun := false, bq := [], g := 0, a := 0, acc := [], answer := .completed [] }

/-! ### Requests, encodings and the step -/

/-- The step runs the decoded instruction (R66, R67): when the request at the head of the schedule decodes to `i`, the step is
`exec i` with that request taken and its agent as the caller; when it decodes to nothing it is refused, and nothing but the
request list, the caller and the answer changes; when no request waits, nothing changes. -/
def Obligations.StepExecutesTheDecodedRequest : Prop :=
  (∀ (s : State) (r : Request) (rest : List Request) (i : Instr),
    s.requests = r :: rest → decode s.cfg r.bytes = .ok i →
    step s = exec i { s with requests := rest, caller := r.agent }) ∧
  (∀ (s : State) (r : Request) (rest : List Request) (e : DecodeError),
    s.requests = r :: rest → decode s.cfg r.bytes = .bad e →
    step s = .next { s with requests := rest, caller := r.agent, answer := .refused (.notAnOperation e) }) ∧
  (∀ s : State, s.requests = [] → step s = .next s)

/-- R251 (d), R100. A request whose op-select code is none of the 17 is refused, whatever its payload and whoever calls. -/
def Obligations.UnassignedCodesAreRefused : Prop :=
  ∀ (s : State) (agent : Agent) (op : Byte) (p : Bytes) (rest : List Request),
    s.requests = ⟨agent, op :: p⟩ :: rest →
    op ∉ [0x01#8, 0x02#8, 0x03#8, 0x11#8, 0x12#8, 0x13#8, 0x20#8, 0x21#8, 0x30#8, 0x40#8, 0x41#8, 0x50#8, 0x51#8, 0x60#8,
      0x70#8, 0x7E#8, 0x7F#8] →
    ∃ why, step s = .next { s with requests := rest, caller := agent, answer := .refused why }

/-- E9. A CAP.DELIVER request whose `some` byte is neither 0 nor 1 is refused, and its block goes nowhere. -/
def Obligations.MalformedDeliveryIsRefused : Prop :=
  ∀ (s : State) (agent : Agent) (present : Byte) (b : Bytes) (rest : List Request),
    s.requests = ⟨agent, 0x70 :: present :: b⟩ :: rest → present ≠ 0 → present ≠ 1 →
    ∃ why, step s = .next { s with requests := rest, caller := agent, answer := .refused why }

/-- R100, R101. Decoding an encoded well-formed operation gives it back, with every operand at every value. -/
def Obligations.DecodeOfEncodeGivesTheInstruction : Prop :=
  ∀ (c : Params) (i : Instr), wellFormed c i = true → decode c (encode i) = .ok i

/-- R100, R101. Each request has one meaning: what a request decodes to is well-formed and encodes to exactly that request. -/
def Obligations.EncodeOfDecodeGivesTheRequest : Prop :=
  ∀ (c : Params) (bytes : Bytes) (i : Instr), decode c bytes = .ok i → encode i = bytes ∧ wellFormed c i = true

/-- Requests written out from R100 and R101 decode to the operations they stand for. -/
def Obligations.SampleRequestsDecode : Prop :=
  decode Params.reference (0x01 :: List.replicate 512 0xA5) = .ok (.ringPush (List.replicate 512 0xA5)) ∧
  decode Params.reference [0x02] = .ok .ringTryPop ∧
  decode Params.reference [0x20] = .ok .xferTick ∧
  decode Params.reference (0x40 :: (List.replicate 512 0x07 ++ [0x78, 0x56, 0x34, 0x12])) =
    .ok (.asmAppend (List.replicate 512 0x07) 0x12345678) ∧
  decode Params.reference [0x70, 0x00] = .ok (.capDeliver none) ∧
  decode Params.reference [0x7E, 0x0A] = .ok (.diagRead 10) ∧
  decode Params.reference [0x7F] = .ok .reset

/-! ### The invariant -/

/-- The invariant holds right after reset (R40). -/
def Obligations.ResetStateHasTheInvariant : Prop := State.reset.Inv

/-- Every step keeps the invariant, from every state that has it, whatever is requested (R24, R26, R29, R30, R97, R125, R145, R193). -/
def Obligations.StepKeepsTheInvariant : Prop := ∀ s t : State, s.Inv → step s = .next t → t.Inv

/-- R40. What the model does where a storage index holds no value, or does not exist: it stops under a name of its own. The rules
show that no run gets there (R125, R29); `StepNeverReadsUnwrittenStorage` states it. -/
def Obligations.UnwrittenStorageStopsByName : Prop :=
  ∀ s : State, s.fault = false →
    (∀ oldest : Word, s.caller = .T → s.rd ≠ s.wr →
      oldest = (if s.cfg.ringN < (s.wr - s.rd).toNat then s.wr - BitVec.ofNat 32 s.cfg.ringN else s.rd) →
      s.slots.read (oldest.toNat % s.cfg.ringN) = none →
      exec .ringTryPop s = .fault (.unwrittenSlot (oldest.toNat % s.cfg.ringN)) ∧
        (s.tRun = true → exec .xferTick s = .fault (.unwrittenSlot (oldest.toNat % s.cfg.ringN)))) ∧
    (∀ b rest, s.caller = .B → s.bRun = true → s.bq = b :: rest →
      (8 ≤ s.g → exec .bstageStep s = .fault (.noGatherEntry s.g)) ∧
      (∀ i < 7, s.g = 7 → s.gbuf.read i = none → exec .bstageStep s = .fault .unwrittenGather))

/-- R125, R191 (4), R40. From a state with the invariant no step reads storage that holds no value: every step answers a next state. -/
def Obligations.StepNeverReadsUnwrittenStorage : Prop := ∀ s : State, s.Inv → ∃ t, step s = .next t
end

