-- ==== Sys2Proof/Laws/Decode.lean ====
section
/-! SUPPORT. What the decoder does with each op-select code (so that no proof unfolds its table), the request payloads' lengths,
and byte order. -/

namespace Sys2Proof

theorem decode_ringPush (c : Params) (p : Bytes) : decode c (0x01 :: p) = .ok (.ringPush p) := rfl
theorem decode_ringTryPop (c : Params) (p : Bytes) : decode c (0x02 :: p) = decodeBare 0x02 .ringTryPop p := rfl
theorem decode_ringLevel (c : Params) (p : Bytes) : decode c (0x03 :: p) = decodeBare 0x03 .ringLevel p := rfl
theorem decode_bqTryPush (c : Params) (p : Bytes) :
    decode c (0x11 :: p) = if p.length = Config.blockBytes then .ok (.bqTryPush p) else .bad (.malformed 0x11) := rfl
theorem decode_bqPop (c : Params) (p : Bytes) : decode c (0x12 :: p) = decodeBare 0x12 .bqPop p := rfl
theorem decode_bqDiscard (c : Params) (p : Bytes) : decode c (0x13 :: p) = decodeBare 0x13 .bqDiscard p := rfl
theorem decode_xferTick (c : Params) (p : Bytes) : decode c (0x20 :: p) = decodeBare 0x20 .xferTick p := rfl
theorem decode_xferStop (c : Params) (p : Bytes) : decode c (0x21 :: p) = decodeBare 0x21 .xferStop p := rfl
theorem decode_decimate (c : Params) (p : Bytes) :
    decode c (0x30 :: p) =
      if p.length = Config.decim * Config.blockBytes then .ok (.decimate (splitBlocks p)) else .bad (.malformed 0x30) := rfl
theorem decode_asmAppend (c : Params) (p : Bytes) : decode c (0x40 :: p) = decodeAsmAppend 0x40 p := rfl
theorem decode_frameEncode (c : Params) (p : Bytes) :
    decode c (0x41 :: p) =
      if p.length = 8 + c.bodyBytes then .ok (.frameEncode (rdLe32 p 0) (rdLe32 p 4) (p.drop 8)) else .bad (.malformed 0x41) :=
  rfl
theorem decode_bstageStep (c : Params) (p : Bytes) : decode c (0x50 :: p) = decodeBare 0x50 .bstageStep p := rfl
theorem decode_bstageStop (c : Params) (p : Bytes) : decode c (0x51 :: p) = decodeBare 0x51 .bstageStop p := rfl
theorem decode_sinkPublish (c : Params) (p : Bytes) :
    decode c (0x60 :: p) = if p.length = c.frameBytes then .ok (.sinkPublish p) else .bad (.malformed 0x60) := rfl
theorem decode_capDeliver (c : Params) (p : Bytes) : decode c (0x70 :: p) = decodeCapDeliver 0x70 p := rfl
theorem decode_diagRead (c : Params) (p : Bytes) : decode c (0x7E :: p) = decodeDiagRead 0x7E p := rfl
theorem decode_reset (c : Params) (p : Bytes) : decode c (0x7F :: p) = decodeBare 0x7F .reset p := rfl

@[simp] theorem decodeBare_nil (op : Byte) (i : Instr) : decodeBare op i [] = .ok i := rfl

theorem decodeBare_eq_ok (op : Byte) (i j : Instr) (p : Bytes) : decodeBare op i p = .ok j ↔ p = [] ∧ i = j := by
  cases p <;> simp [decodeBare]

theorem decodeBare_ne_unassigned (op op' : Byte) (i : Instr) (p : Bytes) :
    decodeBare op i p ≠ .bad (.unassigned op') := by
  cases p <;> simp [decodeBare]

@[simp] theorem le16_length (v : BitVec 16) : (le16 v).length = 2 := rfl
@[simp] theorem le32_length (v : Word) : (le32 v).length = 4 := rfl

/-- Reading past a prefix is reading the rest. -/
theorem byteAt_append (a b : Bytes) (k : Nat) : byteAt (a ++ b) (a.length + k) = byteAt b k := by
  simp [byteAt, List.getD_eq_getElem?_getD, List.getElem?_append_right]

theorem rdLe32_append (a b : Bytes) (k : Nat) : rdLe32 (a ++ b) (a.length + k) = rdLe32 b k := by
  simp only [rdLe32, Nat.add_assoc, byteAt_append]

theorem rdLe16_append (a b : Bytes) (k : Nat) : rdLe16 (a ++ b) (a.length + k) = rdLe16 b k := by
  simp only [rdLe16, Nat.add_assoc, byteAt_append]

/-- The number that `rd_le32` stands for (R12, R61). -/
theorem rdLe32_toNat (b : Bytes) (off : Nat) :
    (rdLe32 b off).toNat = (byteAt b off).toNat + 256 * (byteAt b (off + 1)).toNat + 65536 * (byteAt b (off + 2)).toNat
      + 16777216 * (byteAt b (off + 3)).toNat := by
  have h0 := (byteAt b off).isLt
  have h1 := (byteAt b (off + 1)).isLt
  have h2 := (byteAt b (off + 2)).isLt
  simp only [rdLe32, BitVec.toNat_append]
  rw [← Nat.shiftLeft_add_eq_or_of_lt (by simpa using h0), ← Nat.shiftLeft_add_eq_or_of_lt (by simpa using h1),
    ← Nat.shiftLeft_add_eq_or_of_lt (by simpa using h2)]
  simp only [Nat.shiftLeft_eq]
  omega

/-- The number that `rd_le16` stands for. -/
theorem rdLe16_toNat (b : Bytes) (off : Nat) :
    (rdLe16 b off).toNat = (byteAt b off).toNat + 256 * (byteAt b (off + 1)).toNat := by
  have h0 := (byteAt b off).isLt
  simp only [rdLe16, BitVec.toNat_append]
  rw [← Nat.shiftLeft_add_eq_or_of_lt (by simpa using h0)]
  simp only [Nat.shiftLeft_eq]
  omega

theorem byteAt_cons_zero (x : Byte) (b : Bytes) : byteAt (x :: b) 0 = x := rfl
theorem byteAt_cons_succ (x : Byte) (b : Bytes) (k : Nat) : byteAt (x :: b) (k + 1) = byteAt b k := rfl

/-- A 32-bit value read back from its own little-endian bytes, with anything after them. -/
theorem rdLe32_le32 (v : Word) (rest : Bytes) : rdLe32 (le32 v ++ rest) 0 = v := by
  have hv := v.isLt
  apply BitVec.eq_of_toNat_eq
  rw [rdLe32_toNat]
  simp only [le32, List.cons_append, byteAt_cons_zero, Nat.zero_add, byteAt_cons_succ _ _ 0,
    byteAt_cons_succ _ _ 1, byteAt_cons_succ _ _ 2, BitVec.extractLsb'_toNat, Nat.shiftRight_eq_div_pow]
  omega

/-- A 16-bit value read back from its own little-endian bytes, with anything after them. -/
theorem rdLe16_le16 (v : BitVec 16) (rest : Bytes) : rdLe16 (le16 v ++ rest) 0 = v := by
  have hv := v.isLt
  apply BitVec.eq_of_toNat_eq
  rw [rdLe16_toNat]
  simp only [le16, List.cons_append, byteAt_cons_zero, Nat.zero_add, byteAt_cons_succ _ _ 0,
    BitVec.extractLsb'_toNat, Nat.shiftRight_eq_div_pow]
  omega

/-- A 32-bit field read at the offset where its bytes stand. -/
theorem rdLe32_at {b post : Bytes} {k : Nat} {v : Word} (pre : Bytes) (h : b = pre ++ (le32 v ++ post)) (hk : pre.length = k) :
    rdLe32 b k = v := by
  rw [h, ← hk]
  exact (rdLe32_append pre _ 0).trans (rdLe32_le32 v post)

/-- A 16-bit field read at the offset where its bytes stand. -/
theorem rdLe16_at {b post : Bytes} {k : Nat} {v : BitVec 16} (pre : Bytes) (h : b = pre ++ (le16 v ++ post))
    (hk : pre.length = k) : rdLe16 b k = v := by
  rw [h, ← hk]
  exact (rdLe16_append pre _ 0).trans (rdLe16_le16 v post)

/-- A 32-bit value that was read is written back as the bytes it was read from. -/
theorem le32_rdLe32 (b : Bytes) (off : Nat) :
    le32 (rdLe32 b off) = [byteAt b off, byteAt b (off + 1), byteAt b (off + 2), byteAt b (off + 3)] := by
  have h := rdLe32_toNat b off
  have h0 := (byteAt b off).isLt
  have h1 := (byteAt b (off + 1)).isLt
  have h2 := (byteAt b (off + 2)).isLt
  have h3 := (byteAt b (off + 3)).isLt
  simp only [le32, List.cons.injEq, and_true]
  refine ⟨?_, ?_, ?_, ?_⟩ <;> apply BitVec.eq_of_toNat_eq <;>
    rw [BitVec.extractLsb'_toNat, Nat.shiftRight_eq_div_pow, h] <;> omega

end Sys2Proof
end

