-- ==== Sys2Proof/Laws/Decimation.lean ====
section
/-! SUPPORT. The shape of what the engine reads and writes: 128 samples of a 512-byte block, 128 lanes, 512 bytes out. -/

namespace Sys2Proof.Machine

/-- A block of 4·n bytes holds n samples, sample `j` decoded from slot `j` (R81, R83). -/
theorem samplesOf_eq (n : Nat) : ∀ b : Block, b.length = 4 * n →
    samplesOf b = (List.range n).map fun j => decodeSample (slotAt b j) := by
  induction n with
  | zero =>
    intro b h
    have : b = [] := List.length_eq_zero_iff.1 (by omega)
    subst this; rfl
  | succ n ih =>
    intro b h
    match b, h with
    | b0 :: b1 :: b2 :: b3 :: rest, h =>
      rw [samplesOf, ih rest (by simp at h; omega), List.range_succ_eq_map, List.map_cons, List.map_map]
      congr 1
    | [], h => simp at h
    | [_], h => simp at h; omega
    | [_, _], h => simp at h; omega
    | [_, _, _], h => simp at h; omega

theorem samplesOf_length {b : Block} (h : b.length = 512) : (samplesOf b).length = 128 := by
  simp [samplesOf_eq 128 b h]

/-- Adding blocks of 512 bytes into 128 accumulators keeps 128 of them and adds every block's sample to its own lane (R172). -/
theorem foldl_lanes (bs : List Block) (h : ∀ b ∈ bs, b.length = 512) (acc : Nat → Int) :
    bs.foldl (fun acc b => List.zipWith (· + ·) acc (samplesOf b)) ((List.range 128).map acc) =
      (List.range 128).map fun j => acc j + (bs.map fun b => decodeSample (slotAt b j)).sum := by
  induction bs generalizing acc with
  | nil => simp
  | cons b rest ih =>
    have hb : b.length = 4 * 128 := h b (by simp)
    rw [List.foldl_cons, samplesOf_eq 128 b hb, List.zipWith_map, List.zipWith_self,
      ih (fun c hc => h c (List.mem_cons_of_mem _ hc))]
    apply List.map_congr_left
    intro j _
    simp [add_assoc]

/-- The lanes of blocks of 512 bytes, each the sum over its own position (R172). -/
theorem laneSums_eq {bs : List Block} (h : ∀ b ∈ bs, b.length = 512) :
    laneSums bs = (List.range 128).map fun j => (bs.map fun b => decodeSample (slotAt b j)).sum := by
  have h0 : List.replicate Config.samples (0 : Int) = (List.range 128).map fun _ => 0 := by
    rw [List.map_const', List.length_range]
  rw [laneSums, h0, foldl_lanes bs h]
  simp only [zero_add]

theorem flatMap_le32_length (f : Int → Word) (l : List Int) : (l.flatMap fun v => le32 (f v)).length = 4 * l.length := by
  induction l with
  | nil => rfl
  | cons x r ih => rw [List.flatMap_cons, List.length_append, ih, le32_length, List.length_cons]; omega

/-- DECIMATE's output is a block (R171, R235). -/
theorem decimateBlocks_length {bs : List Block} (h : ∀ b ∈ bs, b.length = 512) : (decimateBlocks bs).length = 512 := by
  rw [decimateBlocks, flatMap_le32_length, laneSums_eq h]
  simp

/-- Slot `j` of DECIMATE's output: what lane `j` puts out for the sum over its own position (R171, R172). -/
theorem decimateBlocks_slot {bs : List Block} (h : ∀ b ∈ bs, b.length = 512) {j : Nat} (hj : j < 128) :
    rdLe32 (decimateBlocks bs) (4 * j) = laneOut (bs.map fun b => decodeSample (slotAt b j)).sum := by
  have key : ∀ (l : List Int) (k : Nat) (hk : k < l.length), rdLe32 (l.flatMap fun v => le32 (laneOut v)) (4 * k) = laneOut l[k] := by
    intro l
    induction l with
    | nil => intro k hk; simp at hk
    | cons x r ih =>
      intro k hk
      cases k with
      | zero => simpa using rdLe32_le32 _ _
      | succ k =>
        rw [List.flatMap_cons]
        have := rdLe32_append (le32 (laneOut x)) (r.flatMap fun v => le32 (laneOut v)) (4 * k)
        rw [le32_length] at this
        rw [show 4 * (k + 1) = 4 + 4 * k by omega, this, ih k (by simpa using hk)]
        rfl
  rw [decimateBlocks, key _ _ (by rw [laneSums_eq h]; simpa using hj)]
  simp only [laneSums_eq h]
  simp

/-- A decoded sample lies in the sample range (R10, R83). -/
theorem decodeSample_bounds (w : Word) : -8388608 ≤ decodeSample w ∧ decodeSample w ≤ 8388607 :=
  ⟨BitVec.le_toInt _, Int.le_of_lt_add_one BitVec.toInt_lt⟩

/-- The division in terms of the floor division (R173). -/
theorem divByEight_eq (v : Int) : divByEight v = if 0 ≤ v then v / 8 else -((-v) / 8) := by
  unfold divByEight
  split
  · exact Int.tdiv_eq_ediv_of_nonneg ‹_›
  · have : v.tdiv 8 = -((-v).tdiv 8) := by rw [Int.neg_tdiv]; simp
    rw [this, Int.tdiv_eq_ediv_of_nonneg (by omega)]

end Sys2Proof.Machine
end

