-- ==== Sys2Proof/Laws/Flags.lean ====
section
/-! SUPPORT. What the diagnostic words say, as numbers. -/

namespace Sys2Proof.Machine

/-- `STATUS` as a number, field by field (R35). -/
theorem statusWord_toNat (s : State) :
    (statusWord s).toNat = s.fault.toNat + 2 * s.faultCode.toNat + 16 * s.tRun.toNat + 32 * s.bRun.toNat + 256 * (s.g % 8)
      + 65536 * (s.a % 65536) := by
  have h : ∀ (f t b : Bool) (c : BitVec 3) (g a : Nat),
      (BitVec.ofNat 16 a ++ 0#5 ++ BitVec.ofNat 3 g ++ 0#2 ++ BitVec.ofBool b ++ BitVec.ofBool t ++ c ++ BitVec.ofBool f).toNat
        = f.toNat + 2 * c.toNat + 16 * t.toNat + 32 * b.toNat + 256 * (g % 8) + 65536 * (a % 65536) := by
    intro f t b c g a
    have hc := c.isLt
    have hf : f.toNat < 2 ^ 1 := by cases f <;> decide
    have ht : t.toNat < 2 ^ 1 := by cases t <;> decide
    have hb : b.toNat < 2 ^ 1 := by cases b <;> decide
    have hg : g % 8 < 2 ^ 3 := by omega
    simp only [BitVec.toNat_append, BitVec.toNat_ofBool, BitVec.toNat_ofNat, Nat.reducePow]
    rw [← Nat.shiftLeft_add_eq_or_of_lt hf, ← Nat.shiftLeft_add_eq_or_of_lt hc, ← Nat.shiftLeft_add_eq_or_of_lt ht,
      ← Nat.shiftLeft_add_eq_or_of_lt hb, ← Nat.shiftLeft_add_eq_or_of_lt (by decide : 0 % 4 < 2 ^ 2),
      ← Nat.shiftLeft_add_eq_or_of_lt hg, ← Nat.shiftLeft_add_eq_or_of_lt (by decide : 0 % 32 < 2 ^ 5)]
    simp only [Nat.shiftLeft_eq]
    omega
  exact h _ _ _ _ _ _

/-- A count that fits in 32 bits shows as itself (assumption 12). -/
theorem diagCount_toNat {n : Nat} (h : n < 2 ^ 32) : (diagCount n).toNat = n := by
  rw [diagCount, if_pos h, BitVec.toNat_ofNat, Nat.mod_eq_of_lt h]

end Sys2Proof.Machine
end

