-- ==== Sys2Proof/Laws/Memory.lean ====
section
/-! SUPPORT. The laws of block storage: a read after a write, and that every write keeps the canonical form. -/

namespace Sys2Proof.Machine

@[simp] theorem Memory.read_nil (i : Nat) : Memory.read [] i = none := rfl

/-- An index written reads as what was written; every other index reads as before (R21, R60). -/
theorem Memory.read_write (m : Memory) (i : Nat) (b : Block) (j : Nat) :
    (m.write i b).read j = if j = i then some b else m.read j := by
  induction m with
  | nil => simp [Memory.write, Memory.read]
  | cons e rest ih =>
    obtain ⟨k, c⟩ := e
    simp only [Memory.write]
    split_ifs <;> simp only [Memory.read] <;> split_ifs <;> simp_all

/-- What a write leaves listed. -/
theorem Memory.mem_write {m : Memory} {i : Nat} {b : Block} {e : Nat × Block} (h : e ∈ m.write i b) :
    e = (i, b) ∨ e ∈ m := by
  induction m with
  | nil => simpa [Memory.write] using h
  | cons x rest ih =>
    obtain ⟨k, c⟩ := x
    simp only [Memory.write] at h
    split_ifs at h <;> simp only [List.mem_cons] at h ⊢ <;> tauto

@[simp] theorem Memory.wf_nil : Memory.wf [] = true := rfl

theorem Memory.wf_cons (i : Nat) (b : Block) (rest : Memory) :
    Memory.wf ((i, b) :: rest) = true ↔ (∀ e ∈ rest, i < e.1) ∧ Memory.wf rest = true := by
  simp [Memory.wf]

/-- A write keeps the canonical form. -/
theorem Memory.wf_write {m : Memory} (i : Nat) (b : Block) (h : m.wf = true) : (m.write i b).wf = true := by
  induction m with
  | nil => simp [Memory.write, Memory.wf]
  | cons x rest ih =>
    obtain ⟨k, c⟩ := x
    obtain ⟨hk, hr⟩ := (Memory.wf_cons k c rest).1 h
    simp only [Memory.write]
    split_ifs with h1 h2
    · refine (Memory.wf_cons ..).2 ⟨fun e he => ?_, h⟩
      rcases List.mem_cons.1 he with rfl | he
      · exact h1
      · exact lt_trans h1 (hk e he)
    · subst h2
      exact (Memory.wf_cons ..).2 ⟨hk, hr⟩
    · refine (Memory.wf_cons ..).2 ⟨fun e he => ?_, ih hr⟩
      rcases Memory.mem_write he with rfl | he
      · simp only; omega
      · exact hk e he

/-- What a read finds is listed. -/
theorem Memory.mem_of_read {m : Memory} {i : Nat} {b : Block} (h : m.read i = some b) : (i, b) ∈ m := by
  induction m with
  | nil => simp at h
  | cons x rest ih =>
    obtain ⟨k, c⟩ := x
    simp only [Memory.read] at h
    split_ifs at h with hk
    · simp_all
    · exact List.mem_cons_of_mem _ (ih h)

/-- Two canonical storages that read alike at every index are equal data. -/
theorem Memory.ext_read {m n : Memory} (hm : m.wf = true) (hn : n.wf = true) (h : ∀ i, m.read i = n.read i) : m = n := by
  induction m generalizing n with
  | nil =>
    cases n with
    | nil => rfl
    | cons y s =>
      obtain ⟨k, c⟩ := y
      have := h k
      simp [Memory.read] at this
  | cons x r ih =>
    obtain ⟨i, b⟩ := x
    obtain ⟨hi, hr⟩ := (Memory.wf_cons i b r).1 hm
    cases n with
    | nil =>
      have := h i
      simp [Memory.read] at this
    | cons y s =>
      obtain ⟨k, c⟩ := y
      obtain ⟨hk, hs⟩ := (Memory.wf_cons k c s).1 hn
      have below : ∀ {l : Memory} {a : Nat}, (∀ e ∈ l, a < e.1) → ∀ {j : Nat}, j ≤ a → Memory.read l j = none := by
        intro l a hl j hj
        by_contra hne
        obtain ⟨d, hd⟩ := Option.ne_none_iff_exists'.1 hne
        have := hl _ (Memory.mem_of_read hd)
        simp only at this
        omega
      have hik : i = k := by
        by_contra hne
        rcases lt_or_gt_of_ne hne with hlt | hlt
        · have h1 := h i
          simp only [Memory.read, if_true, hne, if_false] at h1
          rw [below hk (le_of_lt hlt)] at h1
          simp at h1
        · have h1 := h k
          simp only [Memory.read, if_true, Ne.symm hne, if_false] at h1
          rw [below hi (le_of_lt hlt)] at h1
          simp at h1
      subst hik
      have hbc : b = c := by simpa [Memory.read] using h i
      subst hbc
      congr 1
      refine ih hr hs fun j => ?_
      by_cases hj : j = i
      · subst hj
        rw [below hi le_rfl, below hk le_rfl]
      · simpa [Memory.read, hj] using h j

end Sys2Proof.Machine
end

