-- ==== Sys2Proof/Laws/State.lean ====
section
/-! SUPPORT. One lemma per field for each unconditional state update, so that no proof unfolds a record update. -/

namespace Sys2Proof.Machine

@[simp] theorem answerWith_cfg (x : Answer) (s : State) : (answerWith x s).cfg = s.cfg := rfl
@[simp] theorem answerWith_slots (x : Answer) (s : State) : (answerWith x s).slots = s.slots := rfl
@[simp] theorem answerWith_wr (x : Answer) (s : State) : (answerWith x s).wr = s.wr := rfl
@[simp] theorem answerWith_rd (x : Answer) (s : State) : (answerWith x s).rd = s.rd := rfl
@[simp] theorem answerWith_overruns (x : Answer) (s : State) : (answerWith x s).overruns = s.overruns := rfl
@[simp] theorem answerWith_bq (x : Answer) (s : State) : (answerWith x s).bq = s.bq := rfl
@[simp] theorem answerWith_drops (x : Answer) (s : State) : (answerWith x s).drops = s.drops := rfl
@[simp] theorem answerWith_total (x : Answer) (s : State) : (answerWith x s).total = s.total := rfl
@[simp] theorem answerWith_g (x : Answer) (s : State) : (answerWith x s).g = s.g := rfl
@[simp] theorem answerWith_gbuf (x : Answer) (s : State) : (answerWith x s).gbuf = s.gbuf := rfl
@[simp] theorem answerWith_a (x : Answer) (s : State) : (answerWith x s).a = s.a := rfl
@[simp] theorem answerWith_acc (x : Answer) (s : State) : (answerWith x s).acc = s.acc := rfl
@[simp] theorem answerWith_seqFirstR (x : Answer) (s : State) : (answerWith x s).seqFirstR = s.seqFirstR := rfl
@[simp] theorem answerWith_ts0 (x : Answer) (s : State) : (answerWith x s).ts0 = s.ts0 := rfl
@[simp] theorem answerWith_seq (x : Answer) (s : State) : (answerWith x s).seq = s.seq := rfl
@[simp] theorem answerWith_sinkNotReady (x : Answer) (s : State) : (answerWith x s).sinkNotReady = s.sinkNotReady := rfl
@[simp] theorem answerWith_sinkError (x : Answer) (s : State) : (answerWith x s).sinkError = s.sinkError := rfl
@[simp] theorem answerWith_tRun (x : Answer) (s : State) : (answerWith x s).tRun = s.tRun := rfl
@[simp] theorem answerWith_bRun (x : Answer) (s : State) : (answerWith x s).bRun = s.bRun := rfl
@[simp] theorem answerWith_fault (x : Answer) (s : State) : (answerWith x s).fault = s.fault := rfl
@[simp] theorem answerWith_faultCode (x : Answer) (s : State) : (answerWith x s).faultCode = s.faultCode := rfl
@[simp] theorem answerWith_pubTrace (x : Answer) (s : State) : (answerWith x s).pubTrace = s.pubTrace := rfl
@[simp] theorem answerWith_evtTrace (x : Answer) (s : State) : (answerWith x s).evtTrace = s.evtTrace := rfl
@[simp] theorem answerWith_requests (x : Answer) (s : State) : (answerWith x s).requests = s.requests := rfl
@[simp] theorem answerWith_caller (x : Answer) (s : State) : (answerWith x s).caller = s.caller := rfl
@[simp] theorem answerWith_answer (x : Answer) (s : State) : (answerWith x s).answer = x := rfl
@[simp] theorem answerWith_nowIn (x : Answer) (s : State) : (answerWith x s).nowIn = s.nowIn := rfl
@[simp] theorem answerWith_nowDraws (x : Answer) (s : State) : (answerWith x s).nowDraws = s.nowDraws := rfl
@[simp] theorem answerWith_pubIn (x : Answer) (s : State) : (answerWith x s).pubIn = s.pubIn := rfl
@[simp] theorem answerWith_pubDraws (x : Answer) (s : State) : (answerWith x s).pubDraws = s.pubDraws := rfl
@[simp] theorem answerWith_pubOut (x : Answer) (s : State) : (answerWith x s).pubOut = s.pubOut := rfl
@[simp] theorem answerWith_evtOut (x : Answer) (s : State) : (answerWith x s).evtOut = s.evtOut := rfl
@[simp] theorem answerWith_freeCount (x : Answer) (s : State) : (answerWith x s).freeCount = s.freeCount := rfl

@[simp] theorem raiseFault_cfg (c : BitVec 3) (s : State) : (raiseFault c s).cfg = s.cfg := rfl
@[simp] theorem raiseFault_slots (c : BitVec 3) (s : State) : (raiseFault c s).slots = s.slots := rfl
@[simp] theorem raiseFault_wr (c : BitVec 3) (s : State) : (raiseFault c s).wr = s.wr := rfl
@[simp] theorem raiseFault_rd (c : BitVec 3) (s : State) : (raiseFault c s).rd = s.rd := rfl
@[simp] theorem raiseFault_overruns (c : BitVec 3) (s : State) : (raiseFault c s).overruns = s.overruns := rfl
@[simp] theorem raiseFault_bq (c : BitVec 3) (s : State) : (raiseFault c s).bq = s.bq := rfl
@[simp] theorem raiseFault_drops (c : BitVec 3) (s : State) : (raiseFault c s).drops = s.drops := rfl
@[simp] theorem raiseFault_total (c : BitVec 3) (s : State) : (raiseFault c s).total = s.total := rfl
@[simp] theorem raiseFault_g (c : BitVec 3) (s : State) : (raiseFault c s).g = s.g := rfl
@[simp] theorem raiseFault_gbuf (c : BitVec 3) (s : State) : (raiseFault c s).gbuf = s.gbuf := rfl
@[simp] theorem raiseFault_a (c : BitVec 3) (s : State) : (raiseFault c s).a = s.a := rfl
@[simp] theorem raiseFault_acc (c : BitVec 3) (s : State) : (raiseFault c s).acc = s.acc := rfl
@[simp] theorem raiseFault_seqFirstR (c : BitVec 3) (s : State) : (raiseFault c s).seqFirstR = s.seqFirstR := rfl
@[simp] theorem raiseFault_ts0 (c : BitVec 3) (s : State) : (raiseFault c s).ts0 = s.ts0 := rfl
@[simp] theorem raiseFault_seq (c : BitVec 3) (s : State) : (raiseFault c s).seq = s.seq := rfl
@[simp] theorem raiseFault_sinkNotReady (c : BitVec 3) (s : State) : (raiseFault c s).sinkNotReady = s.sinkNotReady := rfl
@[simp] theorem raiseFault_sinkError (c : BitVec 3) (s : State) : (raiseFault c s).sinkError = s.sinkError := rfl
@[simp] theorem raiseFault_tRun (c : BitVec 3) (s : State) : (raiseFault c s).tRun = s.tRun := rfl
@[simp] theorem raiseFault_bRun (c : BitVec 3) (s : State) : (raiseFault c s).bRun = s.bRun := rfl
@[simp] theorem raiseFault_fault (c : BitVec 3) (s : State) : (raiseFault c s).fault = true := rfl
@[simp] theorem raiseFault_faultCode (c : BitVec 3) (s : State) : (raiseFault c s).faultCode = c := rfl
@[simp] theorem raiseFault_pubTrace (c : BitVec 3) (s : State) : (raiseFault c s).pubTrace = s.pubTrace := rfl
@[simp] theorem raiseFault_evtTrace (c : BitVec 3) (s : State) : (raiseFault c s).evtTrace = s.evtTrace := rfl
@[simp] theorem raiseFault_requests (c : BitVec 3) (s : State) : (raiseFault c s).requests = s.requests := rfl
@[simp] theorem raiseFault_caller (c : BitVec 3) (s : State) : (raiseFault c s).caller = s.caller := rfl
@[simp] theorem raiseFault_answer (c : BitVec 3) (s : State) : (raiseFault c s).answer = s.answer := rfl
@[simp] theorem raiseFault_nowIn (c : BitVec 3) (s : State) : (raiseFault c s).nowIn = s.nowIn := rfl
@[simp] theorem raiseFault_nowDraws (c : BitVec 3) (s : State) : (raiseFault c s).nowDraws = s.nowDraws := rfl
@[simp] theorem raiseFault_pubIn (c : BitVec 3) (s : State) : (raiseFault c s).pubIn = s.pubIn := rfl
@[simp] theorem raiseFault_pubDraws (c : BitVec 3) (s : State) : (raiseFault c s).pubDraws = s.pubDraws := rfl
@[simp] theorem raiseFault_pubOut (c : BitVec 3) (s : State) : (raiseFault c s).pubOut = s.pubOut := rfl
@[simp] theorem raiseFault_evtOut (c : BitVec 3) (s : State) : (raiseFault c s).evtOut = s.evtOut := rfl
@[simp] theorem raiseFault_freeCount (c : BitVec 3) (s : State) : (raiseFault c s).freeCount = s.freeCount := rfl

@[simp] theorem pushBlock_cfg (b : Block) (s : State) : (pushBlock b s).cfg = s.cfg := rfl
@[simp] theorem pushBlock_slots (b : Block) (s : State) : (pushBlock b s).slots = s.slots.write (slotIndex s s.wr) b := rfl
@[simp] theorem pushBlock_wr (b : Block) (s : State) : (pushBlock b s).wr = s.wr + 1 := rfl
@[simp] theorem pushBlock_rd (b : Block) (s : State) : (pushBlock b s).rd = s.rd := rfl
@[simp] theorem pushBlock_overruns (b : Block) (s : State) : (pushBlock b s).overruns = s.overruns := rfl
@[simp] theorem pushBlock_bq (b : Block) (s : State) : (pushBlock b s).bq = s.bq := rfl
@[simp] theorem pushBlock_drops (b : Block) (s : State) : (pushBlock b s).drops = s.drops := rfl
@[simp] theorem pushBlock_total (b : Block) (s : State) : (pushBlock b s).total = s.total := rfl
@[simp] theorem pushBlock_g (b : Block) (s : State) : (pushBlock b s).g = s.g := rfl
@[simp] theorem pushBlock_gbuf (b : Block) (s : State) : (pushBlock b s).gbuf = s.gbuf := rfl
@[simp] theorem pushBlock_a (b : Block) (s : State) : (pushBlock b s).a = s.a := rfl
@[simp] theorem pushBlock_acc (b : Block) (s : State) : (pushBlock b s).acc = s.acc := rfl
@[simp] theorem pushBlock_seqFirstR (b : Block) (s : State) : (pushBlock b s).seqFirstR = s.seqFirstR := rfl
@[simp] theorem pushBlock_ts0 (b : Block) (s : State) : (pushBlock b s).ts0 = s.ts0 := rfl
@[simp] theorem pushBlock_seq (b : Block) (s : State) : (pushBlock b s).seq = s.seq := rfl
@[simp] theorem pushBlock_sinkNotReady (b : Block) (s : State) : (pushBlock b s).sinkNotReady = s.sinkNotReady := rfl
@[simp] theorem pushBlock_sinkError (b : Block) (s : State) : (pushBlock b s).sinkError = s.sinkError := rfl
@[simp] theorem pushBlock_tRun (b : Block) (s : State) : (pushBlock b s).tRun = s.tRun := rfl
@[simp] theorem pushBlock_bRun (b : Block) (s : State) : (pushBlock b s).bRun = s.bRun := rfl
@[simp] theorem pushBlock_fault (b : Block) (s : State) : (pushBlock b s).fault = s.fault := rfl
@[simp] theorem pushBlock_faultCode (b : Block) (s : State) : (pushBlock b s).faultCode = s.faultCode := rfl
@[simp] theorem pushBlock_pubTrace (b : Block) (s : State) : (pushBlock b s).pubTrace = s.pubTrace := rfl
@[simp] theorem pushBlock_evtTrace (b : Block) (s : State) : (pushBlock b s).evtTrace = s.evtTrace := rfl
@[simp] theorem pushBlock_requests (b : Block) (s : State) : (pushBlock b s).requests = s.requests := rfl
@[simp] theorem pushBlock_caller (b : Block) (s : State) : (pushBlock b s).caller = s.caller := rfl
@[simp] theorem pushBlock_answer (b : Block) (s : State) : (pushBlock b s).answer = s.answer := rfl
@[simp] theorem pushBlock_nowIn (b : Block) (s : State) : (pushBlock b s).nowIn = s.nowIn := rfl
@[simp] theorem pushBlock_nowDraws (b : Block) (s : State) : (pushBlock b s).nowDraws = s.nowDraws := rfl
@[simp] theorem pushBlock_pubIn (b : Block) (s : State) : (pushBlock b s).pubIn = s.pubIn := rfl
@[simp] theorem pushBlock_pubDraws (b : Block) (s : State) : (pushBlock b s).pubDraws = s.pubDraws := rfl
@[simp] theorem pushBlock_pubOut (b : Block) (s : State) : (pushBlock b s).pubOut = s.pubOut := rfl
@[simp] theorem pushBlock_evtOut (b : Block) (s : State) : (pushBlock b s).evtOut = s.evtOut := rfl
@[simp] theorem pushBlock_freeCount (b : Block) (s : State) : (pushBlock b s).freeCount = s.freeCount := rfl

@[simp] theorem emitEvent_cfg (s : State) : (emitEvent s).cfg = s.cfg := rfl
@[simp] theorem emitEvent_slots (s : State) : (emitEvent s).slots = s.slots := rfl
@[simp] theorem emitEvent_wr (s : State) : (emitEvent s).wr = s.wr := rfl
@[simp] theorem emitEvent_rd (s : State) : (emitEvent s).rd = s.rd := rfl
@[simp] theorem emitEvent_overruns (s : State) : (emitEvent s).overruns = s.overruns := rfl
@[simp] theorem emitEvent_bq (s : State) : (emitEvent s).bq = s.bq := rfl
@[simp] theorem emitEvent_drops (s : State) : (emitEvent s).drops = s.drops := rfl
@[simp] theorem emitEvent_total (s : State) : (emitEvent s).total = s.total := rfl
@[simp] theorem emitEvent_g (s : State) : (emitEvent s).g = s.g := rfl
@[simp] theorem emitEvent_gbuf (s : State) : (emitEvent s).gbuf = s.gbuf := rfl
@[simp] theorem emitEvent_a (s : State) : (emitEvent s).a = s.a := rfl
@[simp] theorem emitEvent_acc (s : State) : (emitEvent s).acc = s.acc := rfl
@[simp] theorem emitEvent_seqFirstR (s : State) : (emitEvent s).seqFirstR = s.seqFirstR := rfl
@[simp] theorem emitEvent_ts0 (s : State) : (emitEvent s).ts0 = s.ts0 := rfl
@[simp] theorem emitEvent_seq (s : State) : (emitEvent s).seq = s.seq := rfl
@[simp] theorem emitEvent_sinkNotReady (s : State) : (emitEvent s).sinkNotReady = s.sinkNotReady := rfl
@[simp] theorem emitEvent_sinkError (s : State) : (emitEvent s).sinkError = s.sinkError := rfl
@[simp] theorem emitEvent_tRun (s : State) : (emitEvent s).tRun = s.tRun := rfl
@[simp] theorem emitEvent_bRun (s : State) : (emitEvent s).bRun = s.bRun := rfl
@[simp] theorem emitEvent_fault (s : State) : (emitEvent s).fault = s.fault := rfl
@[simp] theorem emitEvent_faultCode (s : State) : (emitEvent s).faultCode = s.faultCode := rfl
@[simp] theorem emitEvent_pubTrace (s : State) : (emitEvent s).pubTrace = s.pubTrace := rfl
@[simp] theorem emitEvent_evtTrace (s : State) : (emitEvent s).evtTrace = s.evtTrace ++ [(s.drops, s.total)] := rfl
@[simp] theorem emitEvent_requests (s : State) : (emitEvent s).requests = s.requests := rfl
@[simp] theorem emitEvent_caller (s : State) : (emitEvent s).caller = s.caller := rfl
@[simp] theorem emitEvent_answer (s : State) : (emitEvent s).answer = s.answer := rfl
@[simp] theorem emitEvent_nowIn (s : State) : (emitEvent s).nowIn = s.nowIn := rfl
@[simp] theorem emitEvent_nowDraws (s : State) : (emitEvent s).nowDraws = s.nowDraws := rfl
@[simp] theorem emitEvent_pubIn (s : State) : (emitEvent s).pubIn = s.pubIn := rfl
@[simp] theorem emitEvent_pubDraws (s : State) : (emitEvent s).pubDraws = s.pubDraws := rfl
@[simp] theorem emitEvent_pubOut (s : State) : (emitEvent s).pubOut = s.pubOut := rfl
@[simp] theorem emitEvent_evtOut (s : State) : (emitEvent s).evtOut = s.evtOut ++ [le32 s.drops ++ le32 s.total] := rfl
@[simp] theorem emitEvent_freeCount (s : State) : (emitEvent s).freeCount = s.freeCount := rfl

@[simp] theorem emitFrame_cfg (f : Bytes) (s : State) : (emitFrame f s).cfg = s.cfg := rfl
@[simp] theorem emitFrame_slots (f : Bytes) (s : State) : (emitFrame f s).slots = s.slots := rfl
@[simp] theorem emitFrame_wr (f : Bytes) (s : State) : (emitFrame f s).wr = s.wr := rfl
@[simp] theorem emitFrame_rd (f : Bytes) (s : State) : (emitFrame f s).rd = s.rd := rfl
@[simp] theorem emitFrame_overruns (f : Bytes) (s : State) : (emitFrame f s).overruns = s.overruns := rfl
@[simp] theorem emitFrame_bq (f : Bytes) (s : State) : (emitFrame f s).bq = s.bq := rfl
@[simp] theorem emitFrame_drops (f : Bytes) (s : State) : (emitFrame f s).drops = s.drops := rfl
@[simp] theorem emitFrame_total (f : Bytes) (s : State) : (emitFrame f s).total = s.total := rfl
@[simp] theorem emitFrame_g (f : Bytes) (s : State) : (emitFrame f s).g = s.g := rfl
@[simp] theorem emitFrame_gbuf (f : Bytes) (s : State) : (emitFrame f s).gbuf = s.gbuf := rfl
@[simp] theorem emitFrame_a (f : Bytes) (s : State) : (emitFrame f s).a = s.a := rfl
@[simp] theorem emitFrame_acc (f : Bytes) (s : State) : (emitFrame f s).acc = s.acc := rfl
@[simp] theorem emitFrame_seqFirstR (f : Bytes) (s : State) : (emitFrame f s).seqFirstR = s.seqFirstR := rfl
@[simp] theorem emitFrame_ts0 (f : Bytes) (s : State) : (emitFrame f s).ts0 = s.ts0 := rfl
@[simp] theorem emitFrame_seq (f : Bytes) (s : State) : (emitFrame f s).seq = s.seq := rfl
@[simp] theorem emitFrame_sinkNotReady (f : Bytes) (s : State) : (emitFrame f s).sinkNotReady = s.sinkNotReady := rfl
@[simp] theorem emitFrame_sinkError (f : Bytes) (s : State) : (emitFrame f s).sinkError = s.sinkError := rfl
@[simp] theorem emitFrame_tRun (f : Bytes) (s : State) : (emitFrame f s).tRun = s.tRun := rfl
@[simp] theorem emitFrame_bRun (f : Bytes) (s : State) : (emitFrame f s).bRun = s.bRun := rfl
@[simp] theorem emitFrame_fault (f : Bytes) (s : State) : (emitFrame f s).fault = s.fault := rfl
@[simp] theorem emitFrame_faultCode (f : Bytes) (s : State) : (emitFrame f s).faultCode = s.faultCode := rfl
@[simp] theorem emitFrame_pubTrace (f : Bytes) (s : State) : (emitFrame f s).pubTrace = s.pubTrace := rfl
@[simp] theorem emitFrame_evtTrace (f : Bytes) (s : State) : (emitFrame f s).evtTrace = s.evtTrace := rfl
@[simp] theorem emitFrame_requests (f : Bytes) (s : State) : (emitFrame f s).requests = s.requests := rfl
@[simp] theorem emitFrame_caller (f : Bytes) (s : State) : (emitFrame f s).caller = s.caller := rfl
@[simp] theorem emitFrame_answer (f : Bytes) (s : State) : (emitFrame f s).answer = s.answer := rfl
@[simp] theorem emitFrame_nowIn (f : Bytes) (s : State) : (emitFrame f s).nowIn = s.nowIn := rfl
@[simp] theorem emitFrame_nowDraws (f : Bytes) (s : State) : (emitFrame f s).nowDraws = s.nowDraws := rfl
@[simp] theorem emitFrame_pubIn (f : Bytes) (s : State) : (emitFrame f s).pubIn = s.pubIn := rfl
@[simp] theorem emitFrame_pubDraws (f : Bytes) (s : State) : (emitFrame f s).pubDraws = s.pubDraws := rfl
@[simp] theorem emitFrame_pubOut (f : Bytes) (s : State) : (emitFrame f s).pubOut = s.pubOut ++ [(s.cfg.topicHint, f)] := rfl
@[simp] theorem emitFrame_evtOut (f : Bytes) (s : State) : (emitFrame f s).evtOut = s.evtOut := rfl
@[simp] theorem emitFrame_freeCount (f : Bytes) (s : State) : (emitFrame f s).freeCount = s.freeCount := rfl

end Sys2Proof.Machine
end

