-- ==== Sys2Proof/Laws/Ops.lean ====
section
/-! SUPPORT. One lemma for each shared operation that says everything it can do, so that proofs cite it instead of unfolding it. -/

namespace Sys2Proof.Machine

/-! ### Ownership and refusal -/

theorem ifOwner_pos {o : Agent} {s : State} {r : Result} (h : s.caller = o) : ifOwner o s r = r := if_pos h

theorem ifOwner_neg {o : Agent} {s : State} {r : Result} (h : s.caller ≠ o) : ifOwner o s r = refuse .notOwner s := if_neg h

theorem ifAdmitted_pos {o : Agent} {s : State} {r : Result} (h : s.caller = o) (hf : s.fault = false) :
    ifAdmitted o s r = r := by
  simp [ifAdmitted, ifOwner, ifNoFault, h, hf]

/-- A data operation of another agent, or of a faulted block, is refused. -/
theorem ifAdmitted_neg {o : Agent} {s : State} {r : Result} (h : s.caller ≠ o ∨ s.fault = true) :
    ∃ why, ifAdmitted o s r = refuse why s := by
  by_cases ho : s.caller = o
  · exact ⟨.faulted, by simp [ifAdmitted, ifOwner, ifNoFault, ho, h.resolve_left (not_not_intro ho)]⟩
  · exact ⟨.notOwner, by simp [ifAdmitted, ifOwner, ho]⟩

/-- A guarded operation either was refused or ran its body for its owner on a block without a fault. -/
theorem ifAdmitted_cases (o : Agent) (s : State) (r : Result) :
    (∃ why, ifAdmitted o s r = refuse why s) ∨ (s.caller = o ∧ s.fault = false ∧ ifAdmitted o s r = r) := by
  by_cases h : s.caller ≠ o ∨ s.fault = true
  · exact .inl (ifAdmitted_neg h)
  · simp only [not_or, not_not, Bool.not_eq_true] at h
    exact .inr ⟨h.1, h.2, ifAdmitted_pos h.1 h.2⟩

theorem ifOwner_cases (o : Agent) (s : State) (r : Result) :
    (∃ why, ifOwner o s r = refuse why s) ∨ (s.caller = o ∧ ifOwner o s r = r) := by
  by_cases h : s.caller = o
  · exact .inr ⟨h, ifOwner_pos h⟩
  · exact .inl ⟨_, ifOwner_neg h⟩

theorem ifRunning_pos {run : Bool} {s : State} {r : Result} (h : run = true) : ifRunning run s r = r := if_pos h

theorem ifRunning_neg {run : Bool} {s : State} {r : Result} (h : run = false) : ifRunning run s r = refuse .stopped s := by
  rw [h]; rfl

/-! ### The Capture Ring -/

/-- RING.TRY_POP's one operation (R122): empty, or catch up and take the slot at the read index, or stop on a slot that holds no
value. -/
theorem takeFromRing_cases (s : State) :
    (s.rd = s.wr ∧ takeFromRing s = .ok (none, s)) ∨
    (s.rd ≠ s.wr ∧ ∃ oldest lost : Word,
      ((s.cfg.ringN < (s.wr - s.rd).toNat ∧ oldest = s.wr - ringNWord s ∧
          lost = if s.cfg.overrunCountEn then s.wr - s.rd - ringNWord s else 0) ∨
        (¬ s.cfg.ringN < (s.wr - s.rd).toNat ∧ oldest = s.rd ∧ lost = 0)) ∧
      ((s.slots.read (slotIndex s oldest) = none ∧ takeFromRing s = .error (.unwrittenSlot (slotIndex s oldest))) ∨
        ∃ b, s.slots.read (slotIndex s oldest) = some b ∧
          takeFromRing s = .ok (some b, { s with rd := oldest + 1, overruns := s.overruns + lost }))) := by
  by_cases he : s.rd = s.wr
  · exact .inl ⟨he, by simp [takeFromRing, ringLag, he]⟩
  · refine .inr ⟨he, ?_⟩
    have hl : ringLag s ≠ 0 := by
      intro h0
      apply he
      have : s.wr - s.rd = 0 := h0
      rw [BitVec.sub_eq_iff_eq_add] at this
      simpa using this.symm
    have hT : takeFromRing s =
        match (catchUp s).slots.read (slotIndex (catchUp s) (catchUp s).rd) with
        | none => .error (.unwrittenSlot (slotIndex (catchUp s) (catchUp s).rd))
        | some b => .ok (some b, { catchUp s with rd := (catchUp s).rd + 1 }) := if_neg hl
    by_cases hb : s.cfg.ringN < (s.wr - s.rd).toNat
    · refine ⟨s.wr - ringNWord s, if s.cfg.overrunCountEn then s.wr - s.rd - ringNWord s else 0, .inl ⟨hb, rfl, rfl⟩, ?_⟩
      have hc : catchUp s = { s with
          overruns := s.overruns + (if s.cfg.overrunCountEn then s.wr - s.rd - ringNWord s else 0)
          rd := s.wr - ringNWord s } := by
        unfold catchUp
        rw [if_pos (show s.cfg.ringN < (ringLag s).toNat from hb)]
        cases s.cfg.overrunCountEn <;> simp [ringLag]
      cases hr : s.slots.read (slotIndex s (s.wr - ringNWord s)) with
      | none => exact .inl ⟨rfl, by rw [hT, hc]; simp only [slotIndex] at hr ⊢; rw [hr]⟩
      | some b => exact .inr ⟨b, rfl, by rw [hT, hc]; simp only [slotIndex] at hr ⊢; rw [hr]⟩
    · refine ⟨s.rd, 0, .inr ⟨hb, rfl, rfl⟩, ?_⟩
      have hc : catchUp s = s := if_neg (show ¬ s.cfg.ringN < (ringLag s).toNat from hb)
      cases hr : s.slots.read (slotIndex s s.rd) with
      | none => exact .inl ⟨rfl, by rw [hT, hc, hr]⟩
      | some b => exact .inr ⟨b, rfl, by rw [hT, hc, hr]; simp⟩

/-- A block presented is pushed, or raises the fault (R121). -/
theorem presentBlock_cases (b : Block) (s : State) :
    (b.length = 512 ∧ presentBlock b s = .next (answerWith (.completed []) (pushBlock b s))) ∨
      (b.length ≠ 512 ∧ presentBlock b s = .next (answerWith (.faultRaised 4) (raiseFault 4 s))) := by
  by_cases h : b.length = 512
  · exact .inl ⟨h, if_pos h⟩
  · exact .inr ⟨h, if_neg h⟩

/-! ### The Batch Queue -/

theorem queuePush_cases (b : Block) (s : State) :
    (s.bq.length = s.cfg.queueDepth ∧ queuePush b s = (false, s)) ∨
      (s.bq.length ≠ s.cfg.queueDepth ∧ queuePush b s = (true, { s with bq := s.bq ++ [b] })) := by
  by_cases h : s.bq.length = s.cfg.queueDepth
  · exact .inl ⟨h, if_pos h⟩
  · exact .inr ⟨h, if_neg h⟩

theorem queueTake_cases (s : State) :
    (s.bq = [] ∧ queueTake s = (none, s)) ∨ ∃ b rest, s.bq = b :: rest ∧ queueTake s = (some b, { s with bq := rest }) := by
  unfold queueTake
  split
  · exact .inl ⟨‹_›, rfl⟩
  · exact .inr ⟨_, _, ‹_›, rfl⟩

/-! ### The Transfer Stage -/

/-- What a tick does with the block it popped, in one equation (R156). -/
theorem forwardBlock_eq (b : Block) (s : State) :
    forwardBlock b s =
      let full := s.bq.length = s.cfg.queueDepth
      let drops := if full then s.drops + 1 else s.drops
      let report := (s.total + 1).toNat % s.cfg.evtPeriod = 0
      { s with
        total := s.total + 1
        bq := if full then s.bq else s.bq ++ [b]
        drops := drops
        evtTrace := if report then s.evtTrace ++ [(drops, s.total + 1)] else s.evtTrace
        evtOut := if report then s.evtOut ++ [le32 drops ++ le32 (s.total + 1)] else s.evtOut } := by
  simp only [forwardBlock, queuePush, emitEvent]
  generalize s.total + 1 = total
  by_cases hf : s.bq.length = s.cfg.queueDepth <;> by_cases hr : total.toNat % s.cfg.evtPeriod = 0 <;>
    simp [hf, hr]

/-! ### Ports -/

/-- The next clock reading is the listed one, or a free one (R192). -/
theorem drawNow_eq (s : State) :
    drawNow s = (s.nowIn.headD (Config.nowMs s.nowDraws), { s with nowIn := s.nowIn.tail, nowDraws := s.nowDraws + 1 }) := by
  unfold drawNow
  split <;> rename_i h <;> simp [h]

/-- The sink's next answer is the listed code's, or a free one's (R214). -/
theorem drawPubResult_eq (s : State) :
    drawPubResult s = (pubResultOfCode (s.pubIn.headD (Config.pubResult s.pubDraws)),
      { s with pubIn := s.pubIn.tail, pubDraws := s.pubDraws + 1 }) := by
  unfold drawPubResult
  split <;> rename_i h <;> simp [h]

/-- Offering a frame, in one equation (R214). -/
theorem publish_eq (f : Bytes) (s : State) :
    publish f s =
      let res := pubResultOfCode (s.pubIn.headD (Config.pubResult s.pubDraws))
      (res, { s with
        pubOut := s.pubOut ++ [(s.cfg.topicHint, f)], pubIn := s.pubIn.tail, pubDraws := s.pubDraws + 1
        pubTrace := s.pubTrace ++ [(f, res)] }) := by
  simp [publish, drawPubResult_eq, emitFrame]

/-- Counting the sink's answer, in one equation (R212). -/
theorem countAnswer_eq (res : PubResult) (s : State) :
    countAnswer res s = { s with
      sinkNotReady := if res = .notReady then s.sinkNotReady + 1 else s.sinkNotReady
      sinkError := if res = .error then s.sinkError + 1 else s.sinkError } := by
  cases res <;> simp [countAnswer]

/-! ### The Batch Assembler -/

/-- Appending a Decimated Block: the batch goes on, or its frame is handed out (R191). -/
theorem appendBlock_cases (d : Block) (now : Word) (s : State) :
    let first := if s.a = 0 then s.seq else s.seqFirstR
    let ts := if s.a = 0 then now else s.ts0
    (s.a + 1 ≠ s.cfg.batchK ∧
      appendBlock d now s =
        (none, { s with seqFirstR := first, ts0 := ts, acc := s.acc ++ d, a := s.a + 1, seq := s.seq + 1 })) ∨
    (s.a + 1 = s.cfg.batchK ∧
      appendBlock d now s =
        (some (encodeFrame s.cfg first ts (s.acc ++ d)),
          { s with seqFirstR := first, ts0 := ts, acc := [], a := 0, seq := s.seq + 1 })) := by
  by_cases h : s.a + 1 = s.cfg.batchK
  · refine .inr ⟨h, ?_⟩
    by_cases h0 : s.a = 0 <;> simp [appendBlock, h0] <;> simp_all
  · refine .inl ⟨h, ?_⟩
    by_cases h0 : s.a = 0 <;> simp [appendBlock, h0] <;> simp_all

@[simp] theorem frameHeader_length (c : Params) (sf ts : Word) : (frameHeader c sf ts).length = 30 := rfl

@[simp] theorem encodeFrame_length (c : Params) (sf ts : Word) (body : Bytes) :
    (encodeFrame c sf ts body).length = 30 + body.length := by
  simp [encodeFrame]

/-- A frame's bytes in order, the fields of R89 and then the body. -/
theorem encodeFrame_layout (c : Params) (sf ts : Word) (body : Bytes) :
    encodeFrame c sf ts body = [0x4A, 0x51, 0x4D, 0x42, 0x02, 0x03] ++ (le16 24 ++ (le32 sf ++ (le16 (BitVec.ofNat 16 c.batchK) ++
      (le16 512 ++ (le32 ts ++ (le16 c.sampleRateHz ++ ([0x02, 0x18, 0x20, 0x00] ++ (le32 c.devId ++ body)))))))) := by
  simp [encodeFrame, frameHeader]

/-- The body stands at the fixed offset 30 (R93). -/
theorem rdLe32_encodeFrame (c : Params) (sf ts : Word) (body : Bytes) (k : Nat) :
    rdLe32 (encodeFrame c sf ts body) (30 + k) = rdLe32 body k := by
  have h := rdLe32_append (frameHeader c sf ts) body k
  rwa [frameHeader_length] at h

/-! ### The gather buffer -/

/-- A run of entries that is there, entry by entry. -/
theorem readRun_eq_some {m : Memory} {i n : Nat} {bs : List Block} :
    readRun m i n = some bs ↔ bs.length = n ∧ ∀ k < n, m.read (i + k) = bs[k]? := by
  induction n generalizing i bs with
  | zero =>
    constructor
    · intro h
      simp [readRun] at h
      simp [h]
    · intro ⟨h, _⟩
      simp [readRun, List.length_eq_zero_iff.1 h]
  | succ n ih =>
    constructor
    · intro h
      simp only [readRun] at h
      split at h
      · rename_i b cs hb hc
        obtain rfl := Option.some.inj h
        obtain ⟨hl, hk⟩ := ih.1 hc
        refine ⟨by simp [hl], fun k hk' => ?_⟩
        cases k with
        | zero => simpa using hb
        | succ k =>
          have := hk k (by omega)
          rw [show i + (k + 1) = i + 1 + k by omega, this]
          simp
      · simp at h
    · intro ⟨hl, hk⟩
      match bs, hl with
      | b :: cs, hl =>
        have hb : m.read i = some b := by simpa using hk 0 (by omega)
        have hc : readRun m (i + 1) n = some cs := by
          refine ih.2 ⟨by simpa using hl, fun k hk' => ?_⟩
          have := hk (k + 1) (by omega)
          rw [show i + 1 + k = i + (k + 1) by omega, this]
          simp
        simp [readRun, hb, hc]

/-- The eight gathered blocks, entry by entry (R29). -/
theorem gatheredBlocks_eq_some {m : Memory} {bs : List Block} :
    gatheredBlocks m = some bs ↔ bs.length = 8 ∧ ∀ k < 8, m.read k = bs[k]? := by
  simpa [gatheredBlocks] using readRun_eq_some (m := m) (i := 0) (n := 8) (bs := bs)

/-- What a step does with the block it popped (R212): gather it, or finish the group, or stop where the buffer has no value. -/
theorem gatherBlock_cases (b : Block) (s : State) :
    (8 ≤ s.g ∧ gatherBlock b s = .fault (.noGatherEntry s.g)) ∨
    (s.g < 7 ∧ gatherBlock b s =
      .next (answerWith (.completed []) { s with gbuf := s.gbuf.write s.g b, g := s.g + 1 })) ∨
    (s.g = 7 ∧ gatheredBlocks (s.gbuf.write 7 b) = none ∧ gatherBlock b s = .fault .unwrittenGather) ∨
    (s.g = 7 ∧ ∃ bs, gatheredBlocks (s.gbuf.write 7 b) = some bs ∧ gatherBlock b s =
      .next (answerWith (.completed []) (finishGroup bs { s with gbuf := s.gbuf.write 7 b, g := 8 }))) := by
  rcases Nat.lt_trichotomy s.g 7 with h | h | h
  · exact .inr (.inl ⟨h, by simp [gatherBlock, complete, show ¬ 8 ≤ s.g by omega, show s.g + 1 < 8 by omega]⟩)
  · refine .inr (.inr ?_)
    cases hg : gatheredBlocks (s.gbuf.write 7 b) with
    | none => exact .inl ⟨h, rfl, by simp [gatherBlock, h, hg]⟩
    | some bs => exact .inr ⟨h, bs, rfl, by simp [gatherBlock, complete, h, hg]⟩
  · exact .inl ⟨h, if_pos h⟩

/-- What a step does once a group is complete, in one equation for each case (R212). -/
theorem finishGroup_eq (bs : List Block) (s : State) :
    let d := decimateBlocks bs
    let now := s.nowIn.headD (Config.nowMs s.nowDraws)
    let first := if s.a = 0 then s.seq else s.seqFirstR
    let ts := if s.a = 0 then now else s.ts0
    let frame := encodeFrame s.cfg first ts (s.acc ++ d)
    let res := pubResultOfCode (s.pubIn.headD (Config.pubResult s.pubDraws))
    (s.a + 1 ≠ s.cfg.batchK ∧ finishGroup bs s =
      { s with g := 0, nowIn := s.nowIn.tail, nowDraws := s.nowDraws + 1, seqFirstR := first, ts0 := ts, acc := s.acc ++ d,
               a := s.a + 1, seq := s.seq + 1 }) ∨
    (s.a + 1 = s.cfg.batchK ∧ finishGroup bs s =
      { s with g := 0, nowIn := s.nowIn.tail, nowDraws := s.nowDraws + 1, seqFirstR := first, ts0 := ts, acc := [], a := 0,
               seq := s.seq + 1, pubIn := s.pubIn.tail, pubDraws := s.pubDraws + 1
               pubOut := s.pubOut ++ [(s.cfg.topicHint, frame)], pubTrace := s.pubTrace ++ [(frame, res)]
               sinkNotReady := if res = .notReady then s.sinkNotReady + 1 else s.sinkNotReady
               sinkError := if res = .error then s.sinkError + 1 else s.sinkError }) := by
  intro d now first ts frame res
  have hd := drawNow_eq { s with g := 0 }
  rcases appendBlock_cases d now { s with g := 0, nowIn := s.nowIn.tail, nowDraws := s.nowDraws + 1 } with ⟨hk, h⟩ | ⟨hk, h⟩
  · refine .inl ⟨hk, ?_⟩
    simp only [finishGroup]
    rw [hd]
    show (match appendBlock d now _ with | (none, s2) => s2 | (some frame, s2) => countAnswer (publish frame s2).1 (publish frame s2).2) = _
    rw [h]
  · refine .inr ⟨hk, ?_⟩
    simp only [finishGroup]
    rw [hd]
    show (match appendBlock d now _ with | (none, s2) => s2 | (some frame, s2) => countAnswer (publish frame s2).1 (publish frame s2).2) = _
    rw [h]
    simp only [publish_eq, countAnswer_eq]
    rfl

/-! ### The step -/

/-- What a step can do (R66, R67, R251): no request waits; or the request is no operation and is refused; or it is executed. -/
theorem step_cases (s : State) :
    (s.requests = [] ∧ step s = .next s) ∨
    ∃ r rest, s.requests = r :: rest ∧
      ((∃ e, decode s.cfg r.bytes = .bad e ∧
          step s = refuse (.notAnOperation e) { s with requests := rest, caller := r.agent }) ∨
        ∃ i, decode s.cfg r.bytes = .ok i ∧ step s = exec i { s with requests := rest, caller := r.agent }) := by
  cases hq : s.requests with
  | nil => exact .inl ⟨rfl, by simp [step, takeRequest, hq]⟩
  | cons r rest =>
    refine .inr ⟨r, rest, rfl, ?_⟩
    cases hd : decode s.cfg r.bytes with
    | ok i => exact .inr ⟨i, rfl, by simp [step, takeRequest, hq, hd]⟩
    | bad e => exact .inl ⟨e, rfl, by simp [step, takeRequest, hq, hd]⟩

end Sys2Proof.Machine
end

