-- ==== Sys2Proof/Laws/Exec.lean ====
section
/-! SUPPORT. What an operation can do, said once: it was refused, or it had the effect of its rule and gave an answer. -/

namespace Sys2Proof.Machine

/-- A presented block's effect (R121): the push, or the fault. -/
def Presented (b : Block) (s : State) (x : Answer) (u : State) : Prop :=
  (b.length = 512 ∧ u = pushBlock b s ∧ x = .completed []) ∨ (b.length ≠ 512 ∧ u = raiseFault 4 s ∧ x = .faultRaised 4)

/-- The effect of an operation that was not refused: the state `u` and the answer `x`. -/
def Effect (i : Instr) (s : State) (x : Answer) (u : State) : Prop :=
  match i with
  | .ringPush b => s.caller = .P ∧ s.fault = false ∧ Presented b s x u
  | .ringTryPop =>
    s.caller = .T ∧ s.fault = false ∧ ∃ out, takeFromRing s = .ok (out, u) ∧ x = .completed (blockResponse out)
  | .ringLevel => s.caller = .H ∧ u = s ∧ x = .completed (le32 (diagCount (ringLevel s)))
  | .bqTryPush b =>
    s.caller = .T ∧ s.fault = false ∧ u = (queuePush b s).2 ∧ x = .completed [if (queuePush b s).1 then 1 else 0]
  | .bqPop => s.caller = .B ∧ s.fault = false ∧ u = (queueTake s).2 ∧ x = .completed (blockResponse (queueTake s).1)
  | .bqDiscard => s.caller = .H ∧ s.fault = false ∧ u = { s with bq := [] } ∧ x = .completed []
  | .xferTick =>
    s.caller = .T ∧ s.fault = false ∧ s.tRun = true ∧ x = .completed [] ∧
      (takeFromRing s = .ok (none, u) ∨ ∃ b s1, takeFromRing s = .ok (some b, s1) ∧ u = forwardBlock b s1)
  | .xferStop => s.caller = .H ∧ u = { s with tRun := false } ∧ x = .completed []
  | .decimate bs => s.caller = .B ∧ s.fault = false ∧ u = s ∧ x = .completed (decimateBlocks bs)
  | .asmAppend d now =>
    s.caller = .B ∧ s.fault = false ∧
      ((d.length = 512 ∧ u = (appendBlock d now s).2 ∧ x = .completed (blockResponse (appendBlock d now s).1)) ∨
        (d.length ≠ 512 ∧ u = raiseFault 4 s ∧ x = .faultRaised 4))
  | .frameEncode sf ts body =>
    s.caller = .B ∧ s.fault = false ∧ u = s ∧ x = .completed (encodeFrame s.cfg sf ts body)
  | .bstageStep =>
    s.caller = .B ∧ s.fault = false ∧ s.bRun = true ∧ x = .completed [] ∧
      ((s.bq = [] ∧ u = s) ∨ ∃ b rest, s.bq = b :: rest ∧
        ((s.g < 7 ∧ u = { s with bq := rest, gbuf := s.gbuf.write s.g b, g := s.g + 1 }) ∨
          (s.g = 7 ∧ ∃ bs, gatheredBlocks (s.gbuf.write 7 b) = some bs ∧
            u = finishGroup bs { s with bq := rest, gbuf := s.gbuf.write 7 b, g := 8 })))
  | .bstageStop => s.caller = .H ∧ u = { s with bRun := false, g := 0, a := 0, acc := [] } ∧ x = .completed []
  | .sinkPublish f =>
    s.caller = .B ∧ s.fault = false ∧ u = (publish f s).2 ∧ x = .completed [pubResultByte (publish f s).1]
  | .capDeliver none => s.caller = .P ∧ s.fault = false ∧ u = s ∧ x = .completed []
  | .capDeliver (some b) => s.caller = .P ∧ s.fault = false ∧ Presented b s x u
  | .diagRead sel => s.caller = .H ∧ u = s ∧ x = .completed (le32 (diagValue s sel))
  | .reset => s.caller = .H ∧ u = toReset s ∧ x = .completed []

theorem next_eq_next {a t : State} (h : (Host.Outcome.next a : Result) = .next t) : t = a := by
  injection h with h
  exact h.symm

theorem refuse_eq_next {why : RefuseReason} {s t : State} : refuse why s = .next t ↔ t = answerWith (.refused why) s := by
  simp [refuse, eq_comm]

theorem complete_eq_next {p : Bytes} {s t : State} : complete p s = .next t ↔ t = answerWith (.completed p) s := by
  simp [complete, eq_comm]

/-- A guarded operation that answers a next state. -/
theorem ifAdmitted_eq_next {o : Agent} {s t : State} {r : Result} (h : ifAdmitted o s r = .next t) :
    (∃ why, t = answerWith (.refused why) s) ∨ (s.caller = o ∧ s.fault = false ∧ r = .next t) := by
  rcases ifAdmitted_cases o s r with ⟨why, hw⟩ | ⟨hc, hf, hr⟩
  · exact .inl ⟨why, refuse_eq_next.1 (hw ▸ h)⟩
  · exact .inr ⟨hc, hf, hr ▸ h⟩

theorem ifOwner_eq_next {o : Agent} {s t : State} {r : Result} (h : ifOwner o s r = .next t) :
    (∃ why, t = answerWith (.refused why) s) ∨ (s.caller = o ∧ r = .next t) := by
  rcases ifOwner_cases o s r with ⟨why, hw⟩ | ⟨hc, hr⟩
  · exact .inl ⟨why, refuse_eq_next.1 (hw ▸ h)⟩
  · exact .inr ⟨hc, hr ▸ h⟩

theorem ifRunning_eq_next {b : Bool} {s t : State} {r : Result} (h : ifRunning b s r = .next t) :
    (∃ why, t = answerWith (.refused why) s) ∨ (b = true ∧ r = .next t) := by
  cases b with
  | false => exact .inl ⟨.stopped, refuse_eq_next.1 (by simpa [ifRunning] using h)⟩
  | true => exact .inr ⟨rfl, by simpa [ifRunning] using h⟩

theorem presentBlock_eq_next {b : Block} {s t : State} (h : presentBlock b s = .next t) :
    ∃ x u, t = answerWith x u ∧ Presented b s x u := by
  rcases presentBlock_cases b s with ⟨hl, hp⟩ | ⟨hl, hp⟩ <;> rw [hp] at h <;> obtain rfl := next_eq_next h
  · exact ⟨_, _, rfl, .inl ⟨hl, rfl, rfl⟩⟩
  · exact ⟨_, _, rfl, .inr ⟨hl, rfl, rfl⟩⟩

/-- Every operation that answers a next state was refused, or had its effect. -/
theorem exec_next {i : Instr} {s t : State} (h : exec i s = .next t) :
    (∃ why, t = answerWith (.refused why) s) ∨ ∃ x u, t = answerWith x u ∧ Effect i s x u := by
  cases i with
  | ringPush b =>
    refine (ifAdmitted_eq_next h).imp_right fun ⟨hc, hf, hr⟩ => ?_
    obtain ⟨x, u, ht, hp⟩ := presentBlock_eq_next hr
    exact ⟨x, u, ht, hc, hf, hp⟩
  | ringTryPop =>
    refine (ifAdmitted_eq_next h).imp_right fun ⟨hc, hf, hr⟩ => ?_
    split at hr
    · cases hr
    · exact ⟨_, _, complete_eq_next.1 hr, hc, hf, _, ‹_›, rfl⟩
  | ringLevel =>
    exact (ifOwner_eq_next h).imp_right fun ⟨hc, hr⟩ => ⟨_, _, complete_eq_next.1 hr, hc, rfl, rfl⟩
  | bqTryPush b =>
    exact (ifAdmitted_eq_next h).imp_right fun ⟨hc, hf, hr⟩ => ⟨_, _, complete_eq_next.1 hr, hc, hf, rfl, rfl⟩
  | bqPop =>
    exact (ifAdmitted_eq_next h).imp_right fun ⟨hc, hf, hr⟩ => ⟨_, _, complete_eq_next.1 hr, hc, hf, rfl, rfl⟩
  | bqDiscard =>
    exact (ifAdmitted_eq_next h).imp_right fun ⟨hc, hf, hr⟩ => ⟨_, _, complete_eq_next.1 hr, hc, hf, rfl, rfl⟩
  | xferTick =>
    rcases ifAdmitted_eq_next h with hw | ⟨hc, hf, hr⟩
    · exact .inl hw
    · refine (ifRunning_eq_next hr).imp_right fun ⟨hrun, hr⟩ => ?_
      split at hr
      · cases hr
      · exact ⟨_, _, complete_eq_next.1 hr, hc, hf, hrun, rfl, .inl ‹_›⟩
      · exact ⟨_, _, complete_eq_next.1 hr, hc, hf, hrun, rfl, .inr ⟨_, _, ‹_›, rfl⟩⟩
  | xferStop =>
    exact (ifOwner_eq_next h).imp_right fun ⟨hc, hr⟩ => ⟨_, _, complete_eq_next.1 hr, hc, rfl, rfl⟩
  | decimate bs =>
    exact (ifAdmitted_eq_next h).imp_right fun ⟨hc, hf, hr⟩ => ⟨_, _, complete_eq_next.1 hr, hc, hf, rfl, rfl⟩
  | asmAppend d now =>
    refine (ifAdmitted_eq_next h).imp_right fun ⟨hc, hf, hr⟩ => ?_
    split at hr
    · exact ⟨_, _, complete_eq_next.1 hr, hc, hf, .inl ⟨‹_›, rfl, rfl⟩⟩
    · exact ⟨_, _, next_eq_next hr, hc, hf,
        .inr ⟨‹_›, rfl, rfl⟩⟩
  | frameEncode sf ts body =>
    exact (ifAdmitted_eq_next h).imp_right fun ⟨hc, hf, hr⟩ => ⟨_, _, complete_eq_next.1 hr, hc, hf, rfl, rfl⟩
  | bstageStep =>
    rcases ifAdmitted_eq_next h with hw | ⟨hc, hf, hr⟩
    · exact .inl hw
    · refine (ifRunning_eq_next hr).imp_right fun ⟨hrun, hr⟩ => ?_
      rcases queueTake_cases s with ⟨he, hq⟩ | ⟨b, rest, hb, hq⟩ <;> rw [hq] at hr
      · exact ⟨_, _, complete_eq_next.1 hr, hc, hf, hrun, rfl, .inl ⟨he, rfl⟩⟩
      · simp only at hr
        rcases gatherBlock_cases b { s with bq := rest } with ⟨_, hg⟩ | ⟨hlt, hg⟩ | ⟨_, _, hg⟩ | ⟨h7, bs, hbs, hg⟩ <;>
          rw [hg] at hr
        · cases hr
        · exact ⟨.completed [], { s with bq := rest, gbuf := s.gbuf.write s.g b, g := s.g + 1 }, next_eq_next hr, hc, hf, hrun,
            rfl, .inr ⟨b, rest, hb, .inl ⟨hlt, rfl⟩⟩⟩
        · cases hr
        · exact ⟨.completed [], finishGroup bs { s with bq := rest, gbuf := s.gbuf.write 7 b, g := 8 }, next_eq_next hr, hc, hf,
            hrun, rfl, .inr ⟨b, rest, hb, .inr ⟨h7, bs, hbs, rfl⟩⟩⟩
  | bstageStop =>
    exact (ifOwner_eq_next h).imp_right fun ⟨hc, hr⟩ => ⟨_, _, complete_eq_next.1 hr, hc, rfl, rfl⟩
  | sinkPublish f =>
    exact (ifAdmitted_eq_next h).imp_right fun ⟨hc, hf, hr⟩ => ⟨_, _, complete_eq_next.1 hr, hc, hf, rfl, rfl⟩
  | capDeliver opt =>
    refine (ifAdmitted_eq_next h).imp_right fun ⟨hc, hf, hr⟩ => ?_
    cases opt with
    | none => exact ⟨_, _, complete_eq_next.1 hr, hc, hf, rfl, rfl⟩
    | some b =>
      obtain ⟨x, u, ht, hp⟩ := presentBlock_eq_next hr
      exact ⟨x, u, ht, hc, hf, hp⟩
  | diagRead sel =>
    exact (ifOwner_eq_next h).imp_right fun ⟨hc, hr⟩ => ⟨_, _, complete_eq_next.1 hr, hc, rfl, rfl⟩
  | reset =>
    exact (ifOwner_eq_next h).imp_right fun ⟨hc, hr⟩ => ⟨_, _, complete_eq_next.1 hr, hc, rfl, rfl⟩

end Sys2Proof.Machine
end

