-- ==== Sys2Proof/Laws/PerInstr.lean ====
section
/-! SUPPORT. Facts about the syntax, one lemma per constructor: every operation's request begins with its op-select code, and the
decoder finds that code assigned (R100, R101). -/

namespace Sys2Proof.Laws

namespace OpSelectAssigned

/-- The request begins with the operation's op-select code, which the decoder never answers as unassigned. -/
def Statement (i : Instr) : Prop :=
  (encode i).head? = some (opSelect i) ∧ ∀ (c : Params) (p : Bytes), decode c (opSelect i :: p) ≠ .bad (.unassigned (opSelect i))

theorem ringPush (b : Block) : Statement (.ringPush b) := ⟨rfl, fun _ _ => by rw [opSelect, decode_ringPush]; simp⟩
theorem ringTryPop : Statement .ringTryPop := ⟨rfl, fun _ p => decodeBare_ne_unassigned _ _ _ p⟩
theorem ringLevel : Statement .ringLevel := ⟨rfl, fun _ p => decodeBare_ne_unassigned _ _ _ p⟩
theorem bqTryPush (b : Block) : Statement (.bqTryPush b) :=
  ⟨rfl, fun _ _ => by simp only [opSelect, decode_bqTryPush]; split <;> simp⟩
theorem bqPop : Statement .bqPop := ⟨rfl, fun _ p => decodeBare_ne_unassigned _ _ _ p⟩
theorem bqDiscard : Statement .bqDiscard := ⟨rfl, fun _ p => decodeBare_ne_unassigned _ _ _ p⟩
theorem xferTick : Statement .xferTick := ⟨rfl, fun _ p => decodeBare_ne_unassigned _ _ _ p⟩
theorem xferStop : Statement .xferStop := ⟨rfl, fun _ p => decodeBare_ne_unassigned _ _ _ p⟩
theorem decimate (bs : List Block) : Statement (.decimate bs) :=
  ⟨rfl, fun _ _ => by simp only [opSelect, decode_decimate]; split <;> simp⟩
theorem asmAppend (b : Block) (now : Word) : Statement (.asmAppend b now) :=
  ⟨rfl, fun _ _ => by simp only [opSelect, decode_asmAppend, decodeAsmAppend]; split <;> simp⟩
theorem frameEncode (sf ts : Word) (body : Bytes) : Statement (.frameEncode sf ts body) :=
  ⟨rfl, fun _ _ => by simp only [opSelect, decode_frameEncode]; split <;> simp⟩
theorem bstageStep : Statement .bstageStep := ⟨rfl, fun _ p => decodeBare_ne_unassigned _ _ _ p⟩
theorem bstageStop : Statement .bstageStop := ⟨rfl, fun _ p => decodeBare_ne_unassigned _ _ _ p⟩
theorem sinkPublish (frame : Bytes) : Statement (.sinkPublish frame) :=
  ⟨rfl, fun _ _ => by simp only [opSelect, decode_sinkPublish]; split <;> simp⟩
theorem capDeliver (opt : Option Block) : Statement (.capDeliver opt) :=
  ⟨rfl, fun _ p => by
    simp only [opSelect, decode_capDeliver]
    unfold decodeCapDeliver
    split <;> [simp; (split_ifs <;> simp)]⟩
theorem diagRead (sel : Byte) : Statement (.diagRead sel) :=
  ⟨rfl, fun _ p => by
    simp only [opSelect, decode_diagRead]
    unfold decodeDiagRead
    split <;> simp⟩
theorem reset : Statement .reset := ⟨rfl, fun _ p => decodeBare_ne_unassigned _ _ _ p⟩

end OpSelectAssigned

end Sys2Proof.Laws
end

