-- ==== Sys2Proof/Tests/Slice0.lean ====
section
/-! SUPPORT. Tests. The expected results come from spec/: the encodings of R100 and R101, the vectors TV301 to TV315, and hand
calculation from the rules named. The last part shows, for each statement, that its hypotheses can be met. -/

namespace Sys2Proof.Tests

open Sys2Proof.Machine

set_option Elab.async false

/-! ### Helpers -/

/-- A small instance: two ring slots, two queue entries, two blocks in a frame, an event every second pop. -/
def small : Params :=
  { ringN := 2, queueDepth := 2, batchK := 2, tickPeriodMs := 8, popTimeoutMs := 16, evtPeriod := 2, sampleRateHz := 1000,
    devId := 0x11223344, topicHint := [0x74], overrunCountEn := true }

/-- The smallest instance: one ring slot, one queue entry, one block in a frame. -/
def tiny : Params := { small with ringN := 1, queueDepth := 1, batchK := 1, evtPeriod := 1, overrunCountEn := false }

/-- The state after reset of an instance, with a caller. -/
def fresh (c : Params) (x : Agent) : State := { State.reset with cfg := c, caller := x }

/-- `const(v)` of spec/95_test_vectors.md: a block whose 128 slots all hold `v`. -/
def const (v : Word) : Block := (List.replicate 128 (le32 v)).flatten

/-- 512 equal bytes. -/
def flat (x : Byte) : Block := List.replicate 512 x

/-- A string of 511 bytes, no block. -/
def short : Block := List.replicate 511 0

/-- The outcome is a next state of which `p` holds. -/
def next (r : Result) (p : State → Bool) : Bool :=
  match r with
  | .next t => p t
  | .fault _ => false
  | .refused _ => false

theorem next_of {r : Result} {p : State → Bool} (h : next r p = true) : ∃ t, r = .next t ∧ p t = true := by
  cases r with
  | next t => exact ⟨t, rfl, h⟩
  | fault f => cases h
  | refused f => cases h

/-! ### Well-formedness: each check refuses an ill-formed term -/

theorem test_wf_refuses_queue_block_of_511 : wellFormed small (.bqTryPush short) = false := by decide +kernel
theorem test_wf_refuses_seven_blocks : wellFormed small (.decimate (List.replicate 7 (flat 0))) = false := by decide +kernel
theorem test_wf_refuses_eight_blocks_one_short :
    wellFormed small (.decimate (short :: List.replicate 7 (flat 0))) = false := by decide +kernel
theorem test_wf_refuses_body_of_one_block : wellFormed small (.frameEncode 0 0 (flat 0)) = false := by decide +kernel
theorem test_wf_refuses_frame_of_1053 : wellFormed small (.sinkPublish (List.replicate 1053 0)) = false := by decide +kernel
theorem test_wf_takes_eight_blocks : wellFormed small (.decimate (List.replicate 8 (flat 0))) = true := by decide +kernel

/-! ### Decoding: a request for every constructor, written out from R100 and R101 -/

theorem test_decode_ringPush : decode small (0x01 :: flat 0xA5) = .ok (.ringPush (flat 0xA5)) := rfl
theorem test_decode_ringPush_short : decode small [0x01, 0x77] = .ok (.ringPush [0x77]) := rfl
theorem test_decode_ringTryPop : decode small [0x02] = .ok .ringTryPop := rfl
theorem test_decode_ringLevel : decode small [0x03] = .ok .ringLevel := rfl
theorem test_decode_bqTryPush : decode small (0x11 :: flat 0x3C) = .ok (.bqTryPush (flat 0x3C)) := by decide +kernel
theorem test_decode_bqPop : decode small [0x12] = .ok .bqPop := rfl
theorem test_decode_bqDiscard : decode small [0x13] = .ok .bqDiscard := rfl
theorem test_decode_xferTick : decode small [0x20] = .ok .xferTick := rfl
theorem test_decode_xferStop : decode small [0x21] = .ok .xferStop := rfl
theorem test_decode_decimate :
    (match decode small (0x30 :: (flat 1 ++ flat 2 ++ flat 3 ++ flat 4 ++ flat 5 ++ flat 6 ++ flat 7 ++ flat 8)) with
      | .ok (.decimate bs) => bs.map fun b => (b.length, b.head?, b.getLast?)
      | _ => []) =
      [(512, some 1, some 1), (512, some 2, some 2), (512, some 3, some 3), (512, some 4, some 4), (512, some 5, some 5),
        (512, some 6, some 6), (512, some 7, some 7), (512, some 8, some 8)] := by decide +kernel
theorem test_decode_asmAppend :
    decode small (0x40 :: (flat 7 ++ [0x78, 0x56, 0x34, 0x12])) = .ok (.asmAppend (flat 7) 0x12345678) := by decide +kernel
theorem test_decode_frameEncode :
    decode small (0x41 :: ([0x04, 0, 0, 0x80] ++ [0xE8, 0x03, 0, 0] ++ (flat 1 ++ flat 2))) =
      .ok (.frameEncode 0x80000004 1000 (flat 1 ++ flat 2)) := by decide +kernel
theorem test_decode_bstageStep : decode small [0x50] = .ok .bstageStep := rfl
theorem test_decode_bstageStop : decode small [0x51] = .ok .bstageStop := rfl
theorem test_decode_sinkPublish :
    decode small (0x60 :: List.replicate 1054 9) = .ok (.sinkPublish (List.replicate 1054 9)) := by decide +kernel
theorem test_decode_capDeliver_none : decode small [0x70, 0x00] = .ok (.capDeliver none) := rfl
theorem test_decode_capDeliver_some : decode small (0x70 :: 0x01 :: short) = .ok (.capDeliver (some short)) := by decide +kernel
theorem test_decode_diagRead : decode small [0x7E, 0x0A] = .ok (.diagRead 10) := rfl
theorem test_decode_reset : decode small [0x7F] = .ok .reset := rfl

/-- TV308 vector 11: unassigned op-select codes. -/
theorem test_decode_unassigned :
    decode small [0x00] = .bad (.unassigned 0x00) ∧ decode small [0x04] = .bad (.unassigned 0x04) ∧
      decode small [0x7D] = .bad (.unassigned 0x7D) ∧ decode small [0x80] = .bad (.unassigned 0x80) ∧
      decode small [0xFF] = .bad (.unassigned 0xFF) := by decide

theorem test_decode_malformed :
    decode small [] = .bad .empty ∧ decode small [0x02, 0] = .bad (.malformed 0x02) ∧
      decode small [0x70, 2] = .bad (.malformed 0x70) ∧ decode small [0x7E] = .bad (.malformed 0x7E) ∧
      decode small [0x7E, 1, 2] = .bad (.malformed 0x7E) ∧ decode small [0x40, 1, 2, 3] = .bad (.malformed 0x40) := by decide

/-! ### Samples and the engine -/

/-- TV301 vectors 4 to 10. -/
theorem test_samples :
    decodeSample 0x00800000 = -8388608 ∧ decodeSample 0x00FFFFFF = -1 ∧ decodeSample 0x00ABCDEF = -5517841 ∧
      decodeSample 0xFF800000 = -8388608 ∧ decodeSample 0x01000005 = 5 ∧ encodeSample (-1) = 0x00FFFFFF ∧
      encodeSample 3500 = 0x00000DAC := by decide

/-- TV305 vectors 7, 12, 16: truncation toward zero, where a floor differs. -/
theorem test_lane_truncates :
    laneOut (-7) = 0x00000000 ∧ laneOut (-36) = 0x00FFFFFC ∧ laneOut (-67108863) = 0x00800001 ∧ laneOut 67108856 = 0x007FFFFF := by
  decide

/-- TV306, second vector: channel 0 holds 100 to 800, channel 1 holds −101 to −801; the means are 450 and −451, bytes
`C2 01 00 00` and `3D FE FF 00` alternating. -/
theorem test_decimate_channels :
    next (exec (.decimate ([[0x64, 0x00, 0x00, 0x00, 0x9B, 0xFF, 0xFF, 0x00], [0xC8, 0x00, 0x00, 0x00, 0x37, 0xFF, 0xFF, 0x00],
          [0x2C, 0x01, 0x00, 0x00, 0xD3, 0xFE, 0xFF, 0x00], [0x90, 0x01, 0x00, 0x00, 0x6F, 0xFE, 0xFF, 0x00],
          [0xF4, 0x01, 0x00, 0x00, 0x0B, 0xFE, 0xFF, 0x00], [0x58, 0x02, 0x00, 0x00, 0xA7, 0xFD, 0xFF, 0x00],
          [0xBC, 0x02, 0x00, 0x00, 0x43, 0xFD, 0xFF, 0x00], [0x20, 0x03, 0x00, 0x00, 0xDF, 0xFC, 0xFF, 0x00]].map
        fun bytes => (List.replicate 64 bytes).flatten)) (fresh small .B))
      (fun t => match t.answer with
        | .completed d => d.take 8 == [0xC2, 0x01, 0x00, 0x00, 0x3D, 0xFE, 0xFF, 0x00] &&
            d.drop 504 == [0xC2, 0x01, 0x00, 0x00, 0x3D, 0xFE, 0xFF, 0x00]
        | _ => false) = true := by
  decide +kernel

/-- TV306, first vector: lanes keep their positions (sample 1 is −283, sample 127 is 283). -/
theorem test_decimate_positions :
    next (exec (.decimate ((List.range 8).map fun i =>
        (List.range 128).flatMap fun j => le32 (encodeSample ((i + 1) * (j - 64))))) (fresh small .B))
      (fun t => match t.answer with
        | .completed d => (d.drop 4).take 4 == [0xE5, 0xFE, 0xFF, 0x00] && (d.drop 508).take 4 == [0x1B, 0x01, 0x00, 0x00]
        | _ => false) = true := by
  decide +kernel

/-! ### One step of each operation -/

/-- TV302 vector 11, for a ring of 2: slot 1 is written and `wr` wraps. -/
theorem test_ringPush_wraps :
    next (exec (.ringPush (flat 5)) { fresh small .P with wr := 0xFFFFFFFF, rd := 0xFFFFFFFF })
      (fun t => t.wr == 0 && t.rd == 0xFFFFFFFF && t.slots.read 1 == some (flat 5) && t.slots.read 0 == none) = true := by
  decide +kernel

/-- TV302 vector 13: a 511-byte string faults and nothing is stored. -/
theorem test_ringPush_shape :
    next (exec (.ringPush short) { fresh small .P with wr := 5, rd := 3 })
      (fun t => t.fault && t.faultCode == 4 && t.wr == 5 && t.slots == []) = true := by decide +kernel

/-- TV302 vector 10 for the reference ring: 20 pushed, none read, counting enabled: 12 lost, block 12 in slot 4 returned. -/
theorem test_ringTryPop_catches_up :
    next (exec .ringTryPop { fresh { small with ringN := 8 } .T with wr := 20, slots := [(4, flat 12)] })
      (fun t => t.rd == 13 && t.overruns == 12 && t.answer == .completed (1 :: flat 12)) = true := by decide +kernel

/-- TV302 vector 5: exactly full, no catch-up. -/
theorem test_ringTryPop_full :
    next (exec .ringTryPop { fresh { small with ringN := 8 } .T with wr := 8, slots := [(0, flat 1)] })
      (fun t => t.rd == 1 && t.overruns == 0 && t.answer == .completed (1 :: flat 1)) = true := by decide +kernel

/-- TV302 vector 7: the level saturates. -/
theorem test_ringLevel_saturates :
    next (exec .ringLevel { fresh { small with ringN := 8 } .H with wr := 9 })
      (fun t => t.answer == .completed [8, 0, 0, 0]) = true := by decide +kernel

/-- TV303 vector 6: a queue of one keeps its block. -/
theorem test_bqTryPush_full :
    next (exec (.bqTryPush (flat 2)) { fresh tiny .T with bq := [flat 1] })
      (fun t => t.answer == .completed [0] && t.bq == [flat 1]) = true := by decide +kernel

theorem test_bqTryPush_appends :
    next (exec (.bqTryPush (flat 2)) { fresh small .T with bq := [flat 1] })
      (fun t => t.answer == .completed [1] && t.bq == [flat 1, flat 2]) = true := by decide +kernel

/-- TV303 vector 2: the head comes out. -/
theorem test_bqPop_head :
    next (exec .bqPop { fresh small .B with bq := [flat 1, flat 2] })
      (fun t => t.answer == .completed (1 :: flat 1) && t.bq == [flat 2]) = true := by decide +kernel

/-- TV303 vector 4: a timeout. -/
theorem test_bqPop_timeout : next (exec .bqPop (fresh small .B)) (fun t => t.answer == .completed [0]) = true := by decide +kernel

/-- TV303 vector 5: discarding counts nothing. -/
theorem test_bqDiscard :
    next (exec .bqDiscard { fresh small .H with bq := [flat 1, flat 2], drops := 3 })
      (fun t => t.bq == [] && t.drops == 3) = true := by decide +kernel

/-- TV304 vector 3: the queue is full, the tick drops the block and reports (3, 64). -/
theorem test_xferTick_drops_and_reports :
    next (exec .xferTick
      { fresh { tiny with evtPeriod := 64 } .T with wr := 1, slots := [(0, flat 5)], bq := [flat 1], total := 63, drops := 2 })
      (fun t => t.rd == 1 && t.bq == [flat 1] && t.total == 64 && t.drops == 3 && t.evtTrace == [(3, 64)] &&
        t.evtOut == [[0x03, 0x00, 0x00, 0x00, 0x40, 0x00, 0x00, 0x00]]) = true := by decide +kernel

/-- TV304 vector 7: a stopped stage refuses the tick. -/
theorem test_xferTick_stopped :
    next (exec .xferTick { fresh small .T with wr := 1, slots := [(0, flat 5)], tRun := false })
      (fun t => t.answer == .refused .stopped && t.rd == 0 && t.total == 0) = true := by decide +kernel

theorem test_xferStop :
    next (exec .xferStop { fresh small .H with fault := true, faultCode := 4 })
      (fun t => !t.tRun && t.bRun && t.fault) = true := by decide +kernel

/-- TV307 T-ASM 3 for a frame of two blocks: the frame has the recorded number and time, not the present ones. -/
theorem test_asmAppend_completes :
    next (exec (.asmAppend (flat 7) 1064)
      { fresh small .B with a := 1, acc := flat 6, seq := 5, seqFirstR := 4, ts0 := 1000 })
      (fun t => t.a == 0 && t.acc == [] && t.seq == 6 &&
        t.answer == .completed (1 :: ([0x4A, 0x51, 0x4D, 0x42, 0x02, 0x03, 0x18, 0x00, 0x04, 0x00, 0x00, 0x00, 0x02, 0x00, 0x00,
          0x02, 0xE8, 0x03, 0x00, 0x00, 0xE8, 0x03, 0x02, 0x18, 0x20, 0x00, 0x44, 0x33, 0x22, 0x11] ++ flat 6 ++ flat 7))) = true := by
  decide +kernel

/-- TV307 T-ASM 1: the first block records its number and the clock. -/
theorem test_asmAppend_first :
    next (exec (.asmAppend (flat 7) 500) { fresh small .B with seq := 9 })
      (fun t => t.a == 1 && t.acc == flat 7 && t.seq == 10 && t.seqFirstR == 9 && t.ts0 == 500 &&
        t.answer == .completed [0]) = true := by decide +kernel

/-- TV307 T-FRM 2, header bytes. -/
theorem test_frameEncode :
    next (exec (.frameEncode 0xFFFFFFFE 1000 (flat 1))
      { fresh { small with batchK := 4, devId := 0xDEADBEEF } .B with seq := 1 })
      (fun t => t.answer == .completed ([0x4A, 0x51, 0x4D, 0x42, 0x02, 0x03, 0x18, 0x00, 0xFE, 0xFF, 0xFF, 0xFF, 0x04, 0x00, 0x00,
        0x02, 0xE8, 0x03, 0x00, 0x00, 0xE8, 0x03, 0x02, 0x18, 0x20, 0x00, 0xEF, 0xBE, 0xAD, 0xDE] ++ flat 1)) = true := by
  decide +kernel

/-- A stage one pop away from its only frame: seven blocks of 8 gathered, one of 16 queued (R212). -/
def lastPop : State :=
  { fresh tiny .B with
    g := 7, gbuf := (List.range 7).map fun i => (i, const 8), bq := [const 16], seq := 41, nowIn := [1007], pubIn := [1] }

/-- R212: the step that pops the last block decimates (mean 9), builds the frame and publishes it; `not_ready` is counted. -/
theorem test_bstageStep_publishes :
    next (exec .bstageStep lastPop)
      (fun t => t.g == 0 && t.a == 0 && t.bq == [] && t.seq == 42 && t.sinkNotReady == 1 && t.sinkError == 0 &&
        t.pubTrace == [(encodeFrame tiny 41 1007 (const 9), .notReady)] &&
        t.pubOut == [([0x74], encodeFrame tiny 41 1007 (const 9))]) = true := by decide +kernel

/-- R212: a block that does not complete its group is gathered. -/
theorem test_bstageStep_gathers :
    next (exec .bstageStep { fresh small .B with bq := [flat 1, flat 2], g := 2, gbuf := [(0, flat 8), (1, flat 9)] })
      (fun t => t.g == 3 && t.bq == [flat 2] && t.gbuf == [(0, flat 8), (1, flat 9), (2, flat 1)] && t.a == 0) = true := by
  decide +kernel

/-- TV308 vector 9. -/
theorem test_bstageStop :
    next (exec .bstageStop { fresh small .H with g := 5, a := 1, acc := flat 1, seq := 7 })
      (fun t => t.g == 0 && t.a == 0 && t.acc == [] && !t.bRun && t.seq == 7 && statusWord t == 0x00000010) = true := by
  decide +kernel

/-- R50, D31: code 3 is `error`; R214: a request on its own moves no counter. -/
theorem test_sinkPublish_reserved_code :
    next (exec (.sinkPublish [1, 2]) { fresh small .B with pubIn := [3, 0] })
      (fun t => t.answer == .completed [2] && t.pubTrace == [([1, 2], .error)] && t.pubIn == [0] && t.sinkError == 0) = true := by
  decide +kernel

/-- R210, the rule's example. -/
theorem test_capDeliver_some :
    next (exec (.capDeliver (some (const 1000))) (fresh small .P))
      (fun t => t.slots == [(0, const 1000)] && t.wr == 1) = true := by decide +kernel

theorem test_capDeliver_none : next (exec (.capDeliver none) (fresh small .P)) (fun t => t.wr == 0 && t.slots == []) = true := by
  decide +kernel

/-- TV308 vector 8: `g = 5`, `a = 2`, running. -/
theorem test_diagRead_status :
    next (exec (.diagRead 10) { fresh small .H with g := 5, a := 2 })
      (fun t => t.answer == .completed [0x30, 0x05, 0x02, 0x00]) = true := by decide +kernel

/-- TV308 vector 3: a reserved selector. -/
theorem test_diagRead_reserved :
    next (exec (.diagRead 16) { fresh small .H with drops := 9 }) (fun t => t.answer == .completed [0, 0, 0, 0]) = true := by
  decide +kernel

/-- TV308 vectors 6 and 7. -/
theorem test_reset :
    next (exec .reset { fresh small .H with fault := true, faultCode := 4, tRun := false, wr := 9, slots := [(0, flat 1)], drops := 2 })
      (fun t => statusWord t == 0x00000030 && t.wr == 0 && t.slots == [] && t.drops == 0) = true := by decide +kernel

/-- TV308 vector 10: the wrong caller. -/
theorem test_wrong_caller :
    next (exec (.ringPush (flat 1)) (fresh small .T)) (fun t => t.answer == .refused .notOwner && t.wr == 0) = true := by
  decide +kernel

/-- R66, R251 (d): the step takes the request and its agent; an unassigned code is refused. -/
theorem test_step :
    next (step { fresh small .B with requests := [⟨.P, 0x01 :: flat 3⟩, ⟨.T, [0x02]⟩] })
      (fun t => t.requests == [⟨.T, [0x02]⟩] && t.caller == .P && t.wr == 1) = true ∧
    next (step { fresh small .B with requests := [⟨.H, [0xFF]⟩] })
      (fun t => t.requests == [] && t.answer == .refused (.notAnOperation (.unassigned 0xFF))) = true := by decide +kernel

/-- The first request after reset, placed from a table word: DIAG.READ with selector 0. -/
theorem test_table_word :
    decodeTableWord 8 0x7E = some (.diagRead 0) ∧ decodeTableWord 8 0x04 = none ∧
      next (step (State.reset.withFetchWord 8 0x20)) (fun t => t.answer == .completed []) = true := by decide +kernel

/-! ### The statements' hypotheses can be met -/

/-- A state of the small instance that has the invariant and nothing empty: full ring, queue, group and batch in progress. -/
def busy (x : Agent) : State :=
  { fresh small x with
    slots := [(0, flat 3), (1, flat 2)], wr := 5, rd := 3, overruns := 1, bq := [flat 1], g := 1, gbuf := [(0, flat 9)],
    a := 1, acc := flat 4, seq := 8, seqFirstR := 7, total := 3 }

theorem busy_inv (x : Agent) : (busy x).Inv where
  params := ⟨⟨1, rfl⟩, by cases x <;> decide, by cases x <;> decide, by cases x <;> decide⟩
  ring := ⟨rfl, by cases x <;> decide +kernel, by cases x <;> decide +kernel, by cases x <;> decide +kernel⟩
  queue := ⟨by cases x <;> decide +kernel, by cases x <;> decide +kernel⟩
  gather := ⟨rfl, by cases x <;> decide +kernel, by cases x <;> decide +kernel, by cases x <;> decide +kernel⟩
  batch := ⟨by cases x <;> decide +kernel, by cases x <;> decide +kernel, by cases x <;> decide +kernel⟩
  faultCode := rfl
  traced := by intro e h; cases h
  emitted := by intro e h; cases h

/-- A state of the small instance that has the invariant and an empty ring. -/
def drained (x : Agent) : State := { fresh small x with slots := [(0, flat 3), (1, flat 2)], wr := 5, rd := 5, total := 5 }

theorem drained_inv (x : Agent) : (drained x).Inv where
  params := ⟨⟨1, rfl⟩, by cases x <;> decide, by cases x <;> decide, by cases x <;> decide⟩
  ring := ⟨rfl, by cases x <;> decide +kernel, by cases x <;> decide +kernel, by cases x <;> decide +kernel⟩
  queue := ⟨by cases x <;> decide +kernel, by cases x <;> decide +kernel⟩
  gather := ⟨rfl, by cases x <;> decide +kernel, by cases x <;> decide +kernel, by cases x <;> decide +kernel⟩
  batch := ⟨by cases x <;> decide +kernel, by cases x <;> decide +kernel, by cases x <;> decide +kernel⟩
  faultCode := rfl
  traced := by intro e h; cases h
  emitted := by intro e h; cases h

theorem tiny_legal : tiny.legal := ⟨⟨0, rfl⟩, by decide, by decide, by decide⟩

/-- RingPushStoresOrFaults: a wrong caller, a fault, a block one byte short, and a whole block at the last index before the wrap. -/
theorem witness_ringPush :
    (∃ s : State, s.caller ≠ .P) ∧ (∃ s : State, s.caller = .P ∧ s.fault = true) ∧
      (∃ (s : State) (b : Block), s.caller = .P ∧ s.fault = false ∧ b.length ≠ 512) ∧
      ∃ (s : State) (b : Block), s.caller = .P ∧ s.fault = false ∧ b.length = 512 ∧ s.wr = 0xFFFFFFFF :=
  ⟨⟨fresh small .T, by decide⟩, ⟨{ fresh small .P with fault := true }, by decide⟩,
    ⟨fresh small .P, short, by decide +kernel⟩, ⟨{ fresh small .P with wr := 0xFFFFFFFF }, flat 1, by decide +kernel⟩⟩

/-- RingTryPopTakesOldestRetained: empty; exactly full, so not behind; one more, so behind, with and without counting. -/
theorem witness_ringTryPop :
    (∃ s : State, s.caller ≠ .T) ∧ (∃ s : State, s.caller = .T ∧ s.fault = true) ∧
      (∃ s : State, s.caller = .T ∧ s.fault = false ∧ s.rd = s.wr) ∧
      (∃ (s : State) (b : Block), s.caller = .T ∧ s.fault = false ∧ s.rd ≠ s.wr ∧ (s.wr - s.rd).toNat = s.cfg.ringN ∧
        s.slots.read (s.rd.toNat % s.cfg.ringN) = some b) ∧
      (∃ (s : State) (b : Block), s.caller = .T ∧ s.fault = false ∧ s.rd ≠ s.wr ∧ (s.wr - s.rd).toNat = s.cfg.ringN + 1 ∧
        s.cfg.overrunCountEn = true ∧
        s.slots.read ((s.wr - BitVec.ofNat 32 s.cfg.ringN).toNat % s.cfg.ringN) = some b) ∧
      ∃ (s : State) (b : Block), s.caller = .T ∧ s.fault = false ∧ s.rd ≠ s.wr ∧ s.cfg.ringN < (s.wr - s.rd).toNat ∧
        s.cfg.overrunCountEn = false ∧
        s.slots.read ((s.wr - BitVec.ofNat 32 s.cfg.ringN).toNat % s.cfg.ringN) = some b :=
  ⟨⟨fresh small .P, by decide⟩, ⟨{ fresh small .T with fault := true }, by decide⟩, ⟨fresh small .T, by decide⟩,
    ⟨busy .T, flat 2, by decide +kernel⟩, ⟨{ busy .T with rd := 2 }, flat 2, by decide +kernel⟩,
    ⟨{ fresh tiny .T with wr := 2, slots := [(0, flat 6)] }, flat 6, by decide +kernel⟩⟩

/-- RingLevelAnswersRetainedCount. -/
theorem witness_ringLevel :
    (∃ s : State, s.caller ≠ .H) ∧ ∃ s : State, s.caller = .H :=
  ⟨⟨fresh small .T, by decide⟩, ⟨fresh small .H, rfl⟩⟩

/-- RingRefinesListOfUnreadBlocks: a push into a full ring, a push into an empty one, an empty pop, a pop, a level. -/
theorem witness_ringRefines :
    (∃ (s : State) (b : Block), s.Inv ∧ s.caller = .P ∧ s.fault = false ∧ b.length = 512 ∧
        (s.wr - s.rd).toNat + 1 < 2 ^ 32 ∧ (unread s).length = s.cfg.ringN) ∧
      (∃ (s : State) (b : Block), s.Inv ∧ s.caller = .P ∧ s.fault = false ∧ b.length = 512 ∧
        (s.wr - s.rd).toNat + 1 < 2 ^ 32 ∧ (unread s).length < s.cfg.ringN) ∧
      (∃ s : State, s.Inv ∧ s.caller = .T ∧ s.fault = false ∧ unread s = []) ∧
      (∃ (s : State) (x : Option Block) (rest : List (Option Block)),
        s.Inv ∧ s.caller = .T ∧ s.fault = false ∧ unread s = x :: rest) ∧
      ∃ s : State, s.Inv ∧ s.caller = .H :=
  ⟨⟨busy .P, flat 1, busy_inv .P, by decide +kernel⟩, ⟨drained .P, flat 1, drained_inv .P, by decide +kernel⟩,
    ⟨drained .T, drained_inv .T, by decide +kernel⟩,
    ⟨busy .T, some (flat 2), [some (flat 3)], busy_inv .T, by decide +kernel⟩, ⟨busy .H, busy_inv .H, rfl⟩⟩

/-- RingWrapLosesExactlyTheOldest, for a ring of one slot and for the reference ring of eight. -/
theorem witness_ringWrap :
    (∃ (s : State) (oldest : Block) (bs : List Block), s.cfg.legal ∧ s.fault = false ∧ s.rd = s.wr ∧
        bs.length = s.cfg.ringN ∧ (∀ b ∈ oldest :: bs, b.length = 512) ∧
        s.requests = (oldest :: bs).map (fun b => ⟨.P, 0x01 :: b⟩) ++ List.replicate (s.cfg.ringN + 1) ⟨.T, [0x02]⟩) ∧
      ∃ (s : State) (oldest : Block) (bs : List Block), s.cfg.legal ∧ s.cfg.ringN = 8 ∧ s.fault = false ∧ s.rd = s.wr ∧
        bs.length = s.cfg.ringN ∧ (∀ b ∈ oldest :: bs, b.length = 512) ∧
        s.requests = (oldest :: bs).map (fun b => ⟨.P, 0x01 :: b⟩) ++ List.replicate (s.cfg.ringN + 1) ⟨.T, [0x02]⟩ :=
  ⟨⟨{ fresh tiny .H with
        requests := ([flat 0, flat 1]).map (fun b => ⟨.P, 0x01 :: b⟩) ++ List.replicate 2 ⟨.T, [0x02]⟩ },
      flat 0, [flat 1], tiny_legal, rfl, rfl, rfl, by decide +kernel, rfl⟩,
    ⟨{ fresh { small with ringN := 8 } .H with
        requests := (flat 0 :: List.replicate 8 (flat 1)).map (fun b => ⟨.P, 0x01 :: b⟩) ++ List.replicate 9 ⟨.T, [0x02]⟩ },
      flat 0, List.replicate 8 (flat 1), ⟨⟨3, rfl⟩, by decide, by decide, by decide⟩, rfl, rfl, rfl, rfl, by decide +kernel, rfl⟩⟩

/-- BqTryPushAppendsUnlessFull, BqPopTakesTheHead, BqDiscardEmptiesUncounted. -/
theorem witness_bqTryPush :
    (∃ s : State, s.caller ≠ .T) ∧ (∃ s : State, s.caller = .T ∧ s.fault = true) ∧
      (∃ s : State, s.caller = .T ∧ s.fault = false ∧ s.bq.length = s.cfg.queueDepth) ∧
      ∃ s : State, s.caller = .T ∧ s.fault = false ∧ s.bq.length ≠ s.cfg.queueDepth :=
  ⟨⟨fresh small .B, by decide⟩, ⟨{ fresh small .T with fault := true }, by decide⟩,
    ⟨{ fresh tiny .T with bq := [flat 1] }, by decide +kernel⟩, ⟨busy .T, by decide +kernel⟩⟩

theorem witness_bqPop :
    (∃ s : State, s.caller ≠ .B) ∧ (∃ s : State, s.caller = .B ∧ s.fault = true) ∧
      (∃ s : State, s.caller = .B ∧ s.fault = false ∧ s.bq = []) ∧
      ∃ (s : State) (b : Block) (rest : List Block), s.caller = .B ∧ s.fault = false ∧ s.bq = b :: rest :=
  ⟨⟨fresh small .T, by decide⟩, ⟨{ fresh small .B with fault := true }, by decide⟩, ⟨fresh small .B, by decide⟩,
    ⟨busy .B, flat 1, [], rfl, rfl, rfl⟩⟩

theorem witness_bqDiscard :
    (∃ s : State, s.caller ≠ .H) ∧ (∃ s : State, s.caller = .H ∧ s.fault = true) ∧
      ∃ s : State, s.caller = .H ∧ s.fault = false ∧ s.bq ≠ [] :=
  ⟨⟨fresh small .T, by decide⟩, ⟨{ fresh small .H with fault := true }, by decide⟩, ⟨busy .H, by decide +kernel⟩⟩

/-- DropAccountingKeepsTheOldest: a queue of one, two pushes more than it holds; and a queue exactly filled. -/
theorem witness_dropAccounting :
    (∃ (s : State) (kept lost : List Block), s.fault = false ∧ s.bq = [] ∧ kept.length = s.cfg.queueDepth ∧
        lost.length = 2 ∧ (∀ b ∈ kept ++ lost, b.length = 512) ∧
        s.requests = (kept ++ lost).map (fun b => ⟨.T, 0x11 :: b⟩) ++ List.replicate (s.cfg.queueDepth + 1) ⟨.B, [0x12]⟩) ∧
      ∃ (s : State) (kept lost : List Block), s.fault = false ∧ s.bq = [] ∧ kept.length = s.cfg.queueDepth ∧
        lost.length = 0 ∧ (∀ b ∈ kept ++ lost, b.length = 512) ∧
        s.requests = (kept ++ lost).map (fun b => ⟨.T, 0x11 :: b⟩) ++ List.replicate (s.cfg.queueDepth + 1) ⟨.B, [0x12]⟩ :=
  ⟨⟨{ fresh tiny .H with
        requests := ([flat 1, flat 2, flat 3]).map (fun b => ⟨.T, 0x11 :: b⟩) ++ List.replicate 2 ⟨.B, [0x12]⟩ },
      [flat 1], [flat 2, flat 3], rfl, rfl, rfl, rfl, by decide +kernel, rfl⟩,
    ⟨{ fresh tiny .H with requests := ([flat 1]).map (fun b => ⟨.T, 0x11 :: b⟩) ++ List.replicate 2 ⟨.B, [0x12]⟩ },
      [flat 1], [], rfl, rfl, rfl, rfl, by decide +kernel, rfl⟩⟩

/-- XferTickMovesOneBlock: refused three ways; empty; behind with a full queue and a report; not behind, room, no report. -/
theorem witness_xferTick :
    (∃ s : State, s.caller ≠ .T) ∧ (∃ s : State, s.caller = .T ∧ s.fault = true) ∧
      (∃ s : State, s.caller = .T ∧ s.fault = false ∧ s.tRun = false) ∧
      (∃ s : State, s.caller = .T ∧ s.fault = false ∧ s.tRun = true ∧ s.rd = s.wr) ∧
      (∃ (s : State) (b : Block), s.caller = .T ∧ s.fault = false ∧ s.tRun = true ∧ s.rd ≠ s.wr ∧
        s.cfg.ringN < (s.wr - s.rd).toNat ∧ s.bq.length = s.cfg.queueDepth ∧ (s.total + 1).toNat % s.cfg.evtPeriod = 0 ∧
        s.slots.read ((s.wr - BitVec.ofNat 32 s.cfg.ringN).toNat % s.cfg.ringN) = some b) ∧
      ∃ (s : State) (b : Block), s.caller = .T ∧ s.fault = false ∧ s.tRun = true ∧ s.rd ≠ s.wr ∧
        (s.wr - s.rd).toNat = s.cfg.ringN ∧ s.bq.length ≠ s.cfg.queueDepth ∧ (s.total + 1).toNat % s.cfg.evtPeriod ≠ 0 ∧
        s.slots.read (s.rd.toNat % s.cfg.ringN) = some b :=
  ⟨⟨fresh small .B, by decide⟩, ⟨{ fresh small .T with fault := true }, by decide⟩,
    ⟨{ fresh small .T with tRun := false }, by decide⟩, ⟨fresh small .T, by decide⟩,
    ⟨{ busy .T with rd := 2, bq := [flat 1, flat 1] }, flat 2, by decide +kernel⟩,
    ⟨{ busy .T with total := 4 }, flat 2, by decide +kernel⟩⟩

/-- XferStopClearsTRun, BstageStopDiscardsPartialBatch, ResetPutsEveryElementAtItsResetValue: also while faulted. -/
theorem witness_hostControls :
    (∃ s : State, s.caller ≠ .H) ∧ (∃ s : State, s.caller = .H ∧ s.fault = true) ∧ ∃ s : State, s.caller = .H ∧ s.fault = false :=
  ⟨⟨fresh small .T, by decide⟩, ⟨{ fresh small .H with fault := true }, by decide⟩, ⟨fresh small .H, by decide⟩⟩

/-- TickAccountsForEveryBlock: a tick that notices an overrun and suffers a drop, and one on an empty ring. -/
theorem witness_tickAccounts :
    (∃ s t : State, s.cfg.legal ∧ exec .xferTick s = .next t ∧ s.cfg.ringN < (s.wr - s.rd).toNat ∧ t.total ≠ s.total ∧
        t.drops ≠ s.drops) ∧
      ∃ s t : State, s.cfg.legal ∧ exec .xferTick s = .next t ∧ t.total = s.total := by
  obtain ⟨t, ht, hp⟩ := next_of (r := exec .xferTick { busy .T with rd := 2, bq := [flat 1, flat 1] })
    (p := fun t => t.total == 4 && t.drops == 1) (by decide +kernel)
  obtain ⟨u, hu, hq⟩ := next_of (r := exec .xferTick (fresh tiny .T)) (p := fun t => t.total == 0) (by decide +kernel)
  simp only [Bool.and_eq_true, beq_iff_eq] at hp hq
  refine ⟨⟨{ busy .T with rd := 2, bq := [flat 1, flat 1] }, t, (busy_inv .T).params, ht, by decide +kernel, ?_, ?_⟩,
    ⟨fresh tiny .T, u, tiny_legal, hu, hq⟩⟩
  · rw [hp.1]; decide
  · rw [hp.2]; decide

/-- DecimateAveragesLaneByLane: refused two ways; eight blocks of the least sample. -/
theorem witness_decimate :
    (∃ s : State, s.caller ≠ .B) ∧ (∃ s : State, s.caller = .B ∧ s.fault = true) ∧
      ∃ (s : State) (bs : List Block), s.caller = .B ∧ s.fault = false ∧ bs.length = 8 ∧ (∀ b ∈ bs, b.length = 512) ∧
        bs.head? = some (const 0x00800000) :=
  ⟨⟨fresh small .H, by decide⟩, ⟨{ fresh small .B with fault := true }, rfl, rfl⟩,
    ⟨fresh small .B, List.replicate 8 (const 0x00800000), rfl, rfl, rfl, by decide +kernel, rfl⟩⟩

/-- SampleRoundTrip, DivisionTruncatesTowardZero, EightSamplesNeverOverflowOrClamp: the ends of the sample range, both signs. -/
theorem witness_arithmetic :
    (-8388608 ≤ (-8388608 : Int) ∧ (-8388608 : Int) ≤ 8388607) ∧ (-8388608 ≤ (8388607 : Int) ∧ (8388607 : Int) ≤ 8388607) ∧
      ((0 : Int) ≤ 0 ∧ (-1 : Int) < 0) ∧ (List.replicate 8 (0x00800000 : Word)).length = 8 := by decide

/-- DecimationLaws: samples at both ends with bounds that hold; none at the least sample, for the symmetry; a permutation. -/
theorem witness_decimationLaws :
    (∃ (xs : List Int) (lo hi : Int), xs.length = 8 ∧ (∀ x ∈ xs, -8388608 ≤ x ∧ x ≤ 8388607) ∧ ∀ x ∈ xs, lo ≤ x ∧ x ≤ hi) ∧
      (∃ xs : List Int, xs.length = 8 ∧ (∀ x ∈ xs, -8388608 ≤ x ∧ x ≤ 8388607) ∧ ∀ x ∈ xs, x ≠ -8388608) ∧
      ∃ bs bs' : List Block, bs.Perm bs' ∧ bs ≠ bs' :=
  ⟨⟨[-8388608, 8388607, -8388608, 8388607, 0, 0, 0, -7], -8388608, 8388607, by decide⟩,
    ⟨[-8388607, 8388607, 1, 2, 3, 4, 5, 6], by decide⟩, ⟨[[1], [2]], [[2], [1]], List.Perm.swap _ _ _, by decide⟩⟩

/-- EqualSamplesDecimateToThemselves: eight blocks alike in the last slot only; a block whose high bytes are set; the two extremes. -/
theorem witness_equalSamples :
    (∃ bs : List Block, bs.length = 8 ∧ (∀ b ∈ bs, b.length = 512) ∧ (∀ b ∈ bs, rdLe32 b (4 * 127) = 0x007FFFFF) ∧
        bs.head? ≠ bs.getLast?) ∧
      (∃ b : Block, b.length = 512 ∧ byteAt b 3 ≠ 0) ∧
      ∃ hi lo : Block, hi.length = 512 ∧ lo.length = 512 ∧ rdLe32 hi (4 * 127) = 0x007FFFFF#32 ∧ rdLe32 lo (4 * 127) = 0x00800000#32 :=
  ⟨⟨(List.replicate 508 1 ++ le32 0x007FFFFF) :: List.replicate 7 (List.replicate 508 2 ++ le32 0x007FFFFF), by decide +kernel⟩,
    ⟨flat 0xFF, by decide +kernel⟩, ⟨const 0x007FFFFF, const 0x00800000, by decide +kernel⟩⟩

/-- DecimationIgnoresHighBytes: two blocks that differ in a high byte and nowhere else. -/
theorem witness_highBytes :
    ∃ b b' : Block, b ≠ b' ∧ List.Forall₂ (fun b b' : Block => b.length = 512 ∧ b'.length = 512 ∧
      ∀ j < 128, (rdLe32 b (4 * j)).extractLsb' 0 24 = (rdLe32 b' (4 * j)).extractLsb' 0 24) [b] [b'] := by
  refine ⟨[5, 0, 0, 0xFF] ++ List.replicate 508 0, [5, 0, 0, 0] ++ List.replicate 508 0, by decide +kernel,
    .cons ⟨by decide +kernel, by decide +kernel, fun j _ => ?_⟩ .nil⟩
  cases j with
  | zero => decide
  | succ j =>
    generalize List.replicate 508 (0 : Byte) = r
    have h : rdLe32 ([5, 0, 0, 0xFF] ++ r) (4 + 4 * j) = rdLe32 r (4 * j) := rdLe32_append [5, 0, 0, 0xFF] r (4 * j)
    have h' : rdLe32 ([5, 0, 0, 0] ++ r) (4 + 4 * j) = rdLe32 r (4 * j) := rdLe32_append [5, 0, 0, 0] r (4 * j)
    rw [show 4 * (j + 1) = 4 + 4 * j by omega, h, h']

/-- AsmAppendNumbersAndCompletes: refused, short, first block, later block that completes, later block that does not. -/
theorem witness_asmAppend :
    (∃ s : State, s.caller ≠ .B) ∧ (∃ s : State, s.caller = .B ∧ s.fault = true) ∧
      (∃ (s : State) (d : Block), s.caller = .B ∧ s.fault = false ∧ d.length ≠ 512) ∧
      (∃ (s : State) (d : Block), s.caller = .B ∧ s.fault = false ∧ d.length = 512 ∧ s.a = 0 ∧ s.a + 1 ≠ s.cfg.batchK) ∧
      (∃ (s : State) (d : Block), s.caller = .B ∧ s.fault = false ∧ d.length = 512 ∧ s.a ≠ 0 ∧ s.a + 1 = s.cfg.batchK) ∧
      (∃ (s : State) (d : Block), s.caller = .B ∧ s.fault = false ∧ d.length = 512 ∧ s.a = 0 ∧ s.a + 1 = s.cfg.batchK) ∧
      ∃ (s : State) (d : Block), s.caller = .B ∧ s.fault = false ∧ d.length = 512 ∧ s.a ≠ 0 ∧ s.a + 1 ≠ s.cfg.batchK :=
  ⟨⟨fresh small .T, by decide⟩, ⟨{ fresh small .B with fault := true }, by decide⟩,
    ⟨fresh small .B, short, by decide +kernel⟩, ⟨fresh small .B, flat 1, by decide +kernel⟩,
    ⟨busy .B, flat 1, by decide +kernel⟩, ⟨fresh tiny .B, flat 1, by decide +kernel⟩,
    ⟨{ fresh { small with batchK := 3 } .B with a := 1, acc := flat 1 }, flat 1, by decide +kernel⟩⟩

/-- FrameEncodeAnswersHeaderAndBody, SinkPublishOffersOnceAndRecords: refused two ways; every sink code, and none listed. -/
theorem witness_frameAndSink :
    (∃ s : State, s.caller ≠ .B) ∧ (∃ s : State, s.caller = .B ∧ s.fault = true) ∧
      (∀ code : BitVec 2, ∃ s : State, s.caller = .B ∧ s.fault = false ∧ s.pubIn.headD (Config.pubResult s.pubDraws) = code) ∧
      ∃ s : State, s.caller = .B ∧ s.fault = false ∧ s.pubIn = [] :=
  ⟨⟨fresh small .T, by decide⟩, ⟨{ fresh small .B with fault := true }, by decide⟩,
    fun code => ⟨{ fresh small .B with pubIn := [code] }, rfl, rfl, rfl⟩, ⟨fresh small .B, rfl, rfl, rfl⟩⟩

/-- FrameDecodesToWhatItWasBuiltFrom: one block, and the greatest legal `BATCH_K`. -/
theorem witness_frameDecodes :
    (∃ (c : Params) (body : Bytes), c.legal ∧ c.batchK = 1 ∧ body.length = 512 * c.batchK) ∧
      ∃ (c : Params) (body : Bytes), c.legal ∧ c.batchK = 65535 ∧ body.length = 512 * c.batchK :=
  ⟨⟨tiny, flat 1, tiny_legal, rfl, by decide +kernel⟩,
    ⟨{ small with batchK := 65535 }, List.replicate (512 * 65535) 0, ⟨⟨1, rfl⟩, by decide, by decide, by decide⟩, rfl,
      List.length_replicate⟩⟩

/-- BatchOfAppendsMakesOneFrame: frames of one block and of two, with one append before the last (k = 1). -/
theorem witness_batchOfAppends :
    (∃ (s : State) (ds : List (Block × Word)) (d₀ : Block) (now₀ : Word), s.caller = .B ∧ s.fault = false ∧ s.a = 0 ∧
        s.acc = [] ∧ ds.length = 0 ∧ ds.length + 1 = s.cfg.batchK ∧ ∀ e ∈ (d₀, now₀) :: ds, e.1.length = 512) ∧
      ∃ (s : State) (ds : List (Block × Word)) (d₀ : Block) (now₀ : Word), s.caller = .B ∧ s.fault = false ∧ s.a = 0 ∧
        s.acc = [] ∧ 1 ≤ ds.length ∧ ds.length + 1 = s.cfg.batchK ∧ ∀ e ∈ (d₀, now₀) :: ds, e.1.length = 512 :=
  ⟨⟨fresh tiny .B, [], flat 1, 7, by decide +kernel⟩, ⟨fresh small .B, [(flat 2, 8)], flat 1, 7, by decide +kernel⟩⟩

/-- CapDeliverPushesWhatWasCaptured. -/
theorem witness_capDeliver :
    (∃ s : State, s.caller ≠ .P) ∧ (∃ s : State, s.caller = .P ∧ s.fault = true) ∧
      (∃ (s : State) (b : Block), s.caller = .P ∧ s.fault = false ∧ b.length ≠ 512) ∧
      ∃ (s : State) (b : Block), s.caller = .P ∧ s.fault = false ∧ b.length = 512 :=
  ⟨⟨fresh small .B, by decide⟩, ⟨{ fresh small .P with fault := true }, by decide⟩,
    ⟨fresh small .P, short, by decide +kernel⟩, ⟨fresh small .P, flat 1, by decide +kernel⟩⟩

/-- BstageStepGathersDecimatesPublishes: refused three ways; timeout; six gathered; seven gathered, with and without a frame. -/
theorem witness_bstageStep :
    (∃ s : State, s.caller ≠ .B) ∧ (∃ s : State, s.caller = .B ∧ s.fault = true) ∧
      (∃ s : State, s.caller = .B ∧ s.fault = false ∧ s.bRun = false) ∧
      (∃ s : State, s.caller = .B ∧ s.fault = false ∧ s.bRun = true ∧ s.bq = []) ∧
      (∃ (s : State) (b : Block) (rest : List Block), s.caller = .B ∧ s.fault = false ∧ s.bRun = true ∧ s.bq = b :: rest ∧
        s.g = 6) ∧
      (∃ (s : State) (b : Block) (rest gathered : List Block), s.caller = .B ∧ s.fault = false ∧ s.bRun = true ∧
        s.bq = b :: rest ∧ s.g = 7 ∧ gathered.length = 7 ∧ (∀ i < 7, s.gbuf.read i = gathered[i]?) ∧ s.a + 1 = s.cfg.batchK) ∧
      ∃ (s : State) (b : Block) (rest gathered : List Block), s.caller = .B ∧ s.fault = false ∧ s.bRun = true ∧
        s.bq = b :: rest ∧ s.g = 7 ∧ gathered.length = 7 ∧ (∀ i < 7, s.gbuf.read i = gathered[i]?) ∧ s.a + 1 ≠ s.cfg.batchK :=
  ⟨⟨fresh small .T, by decide⟩, ⟨{ fresh small .B with fault := true }, by decide⟩,
    ⟨{ fresh small .B with bRun := false }, by decide⟩, ⟨fresh small .B, by decide⟩,
    ⟨{ lastPop with g := 6 }, const 16, [], by decide +kernel⟩,
    ⟨lastPop, const 16, [], List.replicate 7 (const 8), by decide +kernel⟩,
    ⟨{ lastPop with cfg := small }, const 16, [], List.replicate 7 (const 8), by decide +kernel⟩⟩

/-- PipelineMakesOneFrameOfEightKBlocks: sixteen blocks and one more in a queue deep enough. -/
theorem witness_pipeline :
    ∃ (s : State) (groups : List (List Block)) (rest : List Block),
      s.Inv ∧ s.caller = .B ∧ s.fault = false ∧ s.bRun = true ∧ s.g = 0 ∧ s.a = 0 ∧
      groups.length = s.cfg.batchK ∧ (∀ grp ∈ groups, grp.length = 8) ∧ s.bq = groups.flatten ++ rest ∧ rest ≠ [] :=
  ⟨{ fresh { small with queueDepth := 17 } .B with bq := List.replicate 17 (flat 1) },
    [List.replicate 8 (flat 1), List.replicate 8 (flat 1)], [flat 1],
    { params := ⟨⟨1, rfl⟩, by decide, by decide, by decide⟩
      ring := ⟨rfl, by decide +kernel, by decide +kernel, by decide +kernel⟩
      queue := ⟨by decide +kernel, by decide +kernel⟩
      gather := ⟨rfl, by decide +kernel, by decide +kernel, by decide +kernel⟩
      batch := ⟨by decide +kernel, by decide +kernel, by decide +kernel⟩
      faultCode := rfl
      traced := fun e h => by cases h
      emitted := fun e h => by cases h },
    by decide +kernel⟩

/-- DiagReadAnswersTheSelectedValue: the caller, every selector of the table and the two ends of the reserved range, fields in range. -/
theorem witness_diagRead :
    (∃ s : State, s.caller ≠ .H) ∧ (∀ sel : Byte, sel.toNat ≤ 16 ∨ sel = 255 → ∃ s : State, s.caller = .H ∧ s.fault = true ∧
        s.bq.length < 2 ^ 32 ∧ s.g < 8 ∧ s.a < 65536 ∧ s.cfg.ringN < 2 ^ 32 ∧ s.cfg.queueDepth < 2 ^ 32 ∧ s.cfg.batchK < 2 ^ 32) ∧
      16 ≤ (16 : Byte).toNat ∧ 16 ≤ (255 : Byte).toNat :=
  ⟨⟨fresh small .T, by decide⟩, fun _ _ => ⟨{ busy .H with fault := true }, by decide +kernel⟩, by decide, by decide⟩

/-- FaultIsPreciseStickyAndRefusesAllButFive: the fault is raised; it stands while another operation is refused and while one of the
five completes. -/
theorem witness_fault :
    (∃ i s t, exec i s = .next t ∧ s.fault = false ∧ t.fault = true) ∧
      (∃ (i : Instr) (s : State), s.fault = true ∧ i ≠ .ringLevel ∧ i ≠ .xferStop ∧ i ≠ .bstageStop ∧ (∀ sel, i ≠ .diagRead sel) ∧
        i ≠ .reset) ∧
      (∃ s : State, s.fault = true ∧ s.caller = .H) ∧
      ∃ i s t, exec i s = .next t ∧ s.fault = true ∧ i ≠ .reset := by
  obtain ⟨t, ht, hp⟩ := next_of (r := exec (.ringPush short) (fresh small .P)) (p := fun t => t.fault) (by decide +kernel)
  obtain ⟨u, hu, _⟩ := next_of (r := exec .xferStop { fresh small .H with fault := true }) (p := fun t => t.fault) (by decide +kernel)
  exact ⟨⟨_, _, t, ht, rfl, hp⟩, ⟨.bqDiscard, { fresh small .H with fault := true }, by decide, by decide, by decide, by decide,
    fun sel h => (by cases h), by decide⟩, ⟨{ fresh small .H with fault := true }, rfl, rfl⟩, ⟨_, _, u, hu, rfl, by decide⟩⟩

/-- OnlyTheOwnerIsServed: for each agent, an operation it does not own. -/
theorem witness_onlyTheOwner :
    ((fresh small .H).caller ≠ .P) ∧ ((fresh small .P).caller ≠ .T) ∧ ((fresh small .T).caller ≠ .B) ∧
      ((fresh small .B).caller ≠ .H) := by decide

/-- EachElementHasOneWriter, EmittedHistoryOnlyGrows: steps that write the ring, the queue, the batch, the traces, the run flags and
the fault. -/
theorem witness_writers :
    (∃ i s t, exec i s = .next t ∧ t.slots ≠ s.slots ∧ t.wr ≠ s.wr) ∧
      (∃ i s t, exec i s = .next t ∧ t.rd ≠ s.rd ∧ t.overruns ≠ s.overruns ∧ t.drops ≠ s.drops ∧ t.evtTrace ≠ s.evtTrace) ∧
      (∃ i s t, exec i s = .next t ∧ t.bq ≠ s.bq ∧ t.gbuf ≠ s.gbuf ∧ t.seq ≠ s.seq ∧ t.sinkNotReady ≠ s.sinkNotReady ∧
        t.pubTrace ≠ s.pubTrace ∧ i ≠ .reset) ∧
      (∃ i s t, exec i s = .next t ∧ t.acc ≠ s.acc ∧ t.bRun ≠ s.bRun ∧ s.caller = .H) ∧
      ∃ i s t, exec i s = .next t ∧ t.fault ≠ s.fault ∧ s.caller = .B := by
  obtain ⟨t1, h1, p1⟩ := next_of (r := exec (.ringPush (flat 1)) (fresh small .P))
    (p := fun t => decide (t.slots ≠ (fresh small .P).slots ∧ t.wr ≠ (fresh small .P).wr)) (by decide +kernel)
  obtain ⟨t2, h2, p2⟩ := next_of (r := exec .xferTick { busy .T with rd := 2, bq := [flat 1, flat 1] })
    (p := fun t => decide (t.rd ≠ 2 ∧ t.overruns ≠ 1 ∧ t.drops ≠ 0 ∧ t.evtTrace ≠ [])) (by decide +kernel)
  obtain ⟨t3, h3, p3⟩ := next_of (r := exec .bstageStep lastPop)
    (p := fun t => decide (t.bq ≠ lastPop.bq ∧ t.gbuf ≠ lastPop.gbuf ∧ t.seq ≠ lastPop.seq ∧
      t.sinkNotReady ≠ lastPop.sinkNotReady ∧ t.pubTrace ≠ lastPop.pubTrace)) (by decide +kernel)
  obtain ⟨t4, h4, p4⟩ := next_of (r := exec .bstageStop (busy .H))
    (p := fun t => decide (t.acc ≠ (busy .H).acc ∧ t.bRun ≠ (busy .H).bRun)) (by decide +kernel)
  obtain ⟨t5, h5, p5⟩ := next_of (r := exec (.asmAppend short 0) (fresh small .B))
    (p := fun t => decide (t.fault ≠ (fresh small .B).fault)) (by decide +kernel)
  have p1 := of_decide_eq_true p1
  have p2 := of_decide_eq_true p2
  have p3 := of_decide_eq_true p3
  have p4 := of_decide_eq_true p4
  have p5 := of_decide_eq_true p5
  exact ⟨⟨_, _, t1, h1, p1⟩, ⟨_, _, t2, h2, p2⟩, ⟨_, _, t3, h3, p3.1, p3.2.1, p3.2.2.1, p3.2.2.2.1, p3.2.2.2.2, by decide⟩,
    ⟨_, _, t4, h4, p4.1, p4.2, rfl⟩, ⟨_, _, t5, h5, p5, rfl⟩⟩

/-- OnlyResetRestartsAStage: an operation that completes while both stages are stopped. -/
theorem witness_stopped :
    ∃ i s t, exec i s = .next t ∧ i ≠ .reset ∧ s.tRun = false ∧ s.bRun = false := by
  obtain ⟨t, ht, _⟩ := next_of (r := exec (.ringPush (flat 1)) { fresh small .P with tRun := false, bRun := false })
    (p := fun t => t.wr == 1) (by decide +kernel)
  exact ⟨_, _, t, ht, by decide, rfl, rfl⟩

/-- SequenceAdvancesOncePerDecimatedBlock: an append that completes a batch of one, the step that gathers the eighth block, and the
two kinds that append nothing: BSTAGE.STOP, and an append that faults. -/
theorem witness_sequence :
    (∃ s t, exec (.asmAppend (flat 1) 0) s = .next t ∧ (∃ p, t.answer = .completed p) ∧ s.a + 1 = s.cfg.batchK) ∧
      (∃ s t, exec .bstageStep s = .next t ∧ s.g = 7 ∧ t.g = 0) ∧
      (∃ s t, exec .bstageStop s = .next t ∧ s.acc ≠ []) ∧
      ∃ s t, exec (.asmAppend short 0) s = .next t ∧ t.answer = .faultRaised 4 := by
  obtain ⟨t, ht, hp⟩ := next_of (r := exec (.asmAppend (flat 1) 0) (fresh tiny .B))
    (p := fun t => match t.answer with | .completed _ => true | _ => false) (by decide +kernel)
  obtain ⟨u, hu, hq⟩ := next_of (r := exec .bstageStep lastPop) (p := fun t => t.g == 0) (by decide +kernel)
  obtain ⟨v, hv, _⟩ := next_of (r := exec .bstageStop (busy .H)) (p := fun t => t.acc == []) (by decide +kernel)
  obtain ⟨w, hw, hz⟩ := next_of (r := exec (.asmAppend short 0) (fresh small .B)) (p := fun t => t.answer == .faultRaised 4)
    (by decide +kernel)
  simp only [beq_iff_eq] at hq hz
  refine ⟨⟨_, t, ht, ?_, by decide⟩, ⟨_, u, hu, by decide, hq⟩, ⟨_, v, hv, by decide +kernel⟩, ⟨_, w, hw, hz⟩⟩
  cases ha : t.answer <;> simp [ha] at hp ⊢

/-- ParametersNeverChange, StepKeepsTheInvariant, StepNeverReadsUnwrittenStorage: a step from a state with the invariant. -/
theorem witness_invariant :
    ∃ s t : State, s.Inv ∧ step s = .next t ∧ t ≠ s := by
  have hi : State.Inv { busy .H with requests := [⟨.T, [0x20]⟩] } :=
    ⟨(busy_inv .H).1, ⟨(busy_inv .H).2.1, (busy_inv .H).2.2, (busy_inv .H).2.3, (busy_inv .H).2.4⟩,
      ⟨(busy_inv .H).3.1, (busy_inv .H).3.2⟩,
      ⟨(busy_inv .H).4.1, (busy_inv .H).4.2, (busy_inv .H).4.3, (busy_inv .H).4.4⟩,
      ⟨(busy_inv .H).5.1, (busy_inv .H).5.2, (busy_inv .H).5.3⟩, (busy_inv .H).6, (busy_inv .H).7, (busy_inv .H).8⟩
  obtain ⟨t, ht, hp⟩ := next_of (r := step { busy .H with requests := [⟨.T, [0x20]⟩] }) (p := fun t => t.total == 4)
    (by decide +kernel)
  refine ⟨_, t, hi, ht, ?_⟩
  rintro rfl
  revert hp
  decide +kernel

/-- ShutdownInOrderEndsCleanly: a busy block. -/
theorem witness_shutdown :
    ∃ s : State, s.caller = .H ∧ s.fault = false ∧ s.bq ≠ [] ∧ s.a ≠ 0 :=
  ⟨busy .H, by decide +kernel⟩

/-- StepExecutesTheDecodedRequest: a request that decodes, one that does not, and none. -/
theorem witness_step :
    (∃ (s : State) (r : Request) (rest : List Request) (i : Instr), s.requests = r :: rest ∧ decode s.cfg r.bytes = .ok i) ∧
      (∃ (s : State) (r : Request) (rest : List Request) (e : DecodeError),
        s.requests = r :: rest ∧ decode s.cfg r.bytes = .bad e) ∧
      ∃ s : State, s.requests = [] :=
  ⟨⟨{ fresh small .H with requests := [⟨.T, [0x20]⟩] }, ⟨.T, [0x20]⟩, [], .xferTick, rfl, rfl⟩,
    ⟨{ fresh small .H with requests := [⟨.T, []⟩] }, ⟨.T, []⟩, [], .empty, rfl, rfl⟩, ⟨fresh small .H, rfl⟩⟩

/-- UnassignedCodesAreRefused, MalformedDeliveryIsRefused: the ends of the ranges between assigned codes; `some = 2` and 255. -/
theorem witness_refusedRequests :
    (∀ op ∈ [0x00#8, 0x04#8, 0x10#8, 0x14#8, 0x1F#8, 0x22#8, 0x7D#8, 0x80#8, 0xFF#8],
        op ∉ [0x01#8, 0x02#8, 0x03#8, 0x11#8, 0x12#8, 0x13#8, 0x20#8, 0x21#8, 0x30#8, 0x40#8, 0x41#8, 0x50#8, 0x51#8, 0x60#8,
          0x70#8, 0x7E#8, 0x7F#8] ∧ ∃ s : State, s.requests = [⟨.H, [op]⟩]) ∧
      ∀ present ∈ [2#8, 255#8], present ≠ 0 ∧ present ≠ 1 ∧ ∃ s : State, s.requests = [⟨.P, 0x70 :: present :: flat 1⟩] :=
  ⟨fun op h => ⟨by revert h; revert op; decide, { fresh small .H with requests := [⟨.H, [op]⟩] }, rfl⟩,
    fun p h => ⟨by revert h; revert p; decide, by revert h; revert p; decide,
      { fresh small .H with requests := [⟨.P, 0x70 :: p :: flat 1⟩] }, rfl⟩⟩

/-- DecodeOfEncodeGivesTheInstruction, EncodeOfDecodeGivesTheRequest: the operations with operands, at the ends of their operands. -/
theorem witness_encoding :
    wellFormed small (.decimate (List.replicate 8 (flat 0xFF))) = true ∧ wellFormed small (.bqTryPush (flat 0)) = true ∧
      wellFormed small (.frameEncode 0xFFFFFFFF 0 (flat 1 ++ flat 2)) = true ∧
      wellFormed small (.sinkPublish (List.replicate 1054 0)) = true ∧ wellFormed small (.asmAppend [] 0xFFFFFFFF) = true ∧
      wellFormed small (.capDeliver (some [])) = true ∧ wellFormed small (.ringPush []) = true ∧
      decode small [0x7E, 0xFF] = .ok (.diagRead 0xFF) := by decide +kernel

/-- UnwrittenStorageStopsByName: a ring and a gather buffer that no run leaves so. -/
theorem witness_unwritten :
    (∃ s : State, s.fault = false ∧ s.caller = .T ∧ s.rd ≠ s.wr ∧ s.tRun = true ∧
        s.slots.read ((if s.cfg.ringN < (s.wr - s.rd).toNat then s.wr - BitVec.ofNat 32 s.cfg.ringN else s.rd).toNat %
          s.cfg.ringN) = none) ∧
      (∃ (s : State) (b : Block), s.fault = false ∧ s.caller = .B ∧ s.bRun = true ∧ s.bq = [b] ∧ 8 ≤ s.g) ∧
      ∃ (s : State) (b : Block), s.fault = false ∧ s.caller = .B ∧ s.bRun = true ∧ s.bq = [b] ∧ s.g = 7 ∧ s.gbuf.read 6 = none :=
  ⟨⟨{ fresh small .T with wr := 1 }, by decide +kernel⟩, ⟨{ lastPop with g := 8 }, const 16, by decide +kernel⟩,
    ⟨{ lastPop with gbuf := [] }, const 16, by decide +kernel⟩⟩

end Sys2Proof.Tests
end

