-- ==== Sys2Proof/Proofs/Scope.lean ====
section
/-! PROOFS. The parameters (spec/00_scope.md R9): every shared operation keeps them, so every operation's effect does, so every
step does. -/

namespace Sys2Proof.Machine

/-! ### The shared operations keep the parameters -/

@[simp] theorem toReset_cfg (s : State) : (toReset s).cfg = s.cfg := rfl

theorem takeFromRing_cfg {s u : State} {out : Option Block} (h : takeFromRing s = .ok (out, u)) : u.cfg = s.cfg := by
  rcases takeFromRing_cases s with ⟨_, hT⟩ | ⟨_, oldest, lost, _, ⟨_, hT⟩ | ⟨b, _, hT⟩⟩ <;> rw [hT] at h <;> cases h <;> rfl

@[simp] theorem queuePush_cfg (b : Block) (s : State) : (queuePush b s).2.cfg = s.cfg := by
  rcases queuePush_cases b s with ⟨_, hq⟩ | ⟨_, hq⟩ <;> rw [hq]

@[simp] theorem queueTake_cfg (s : State) : (queueTake s).2.cfg = s.cfg := by
  rcases queueTake_cases s with ⟨_, hq⟩ | ⟨_, _, _, hq⟩ <;> rw [hq]

@[simp] theorem forwardBlock_cfg (b : Block) (s : State) : (forwardBlock b s).cfg = s.cfg := by rw [forwardBlock_eq]

@[simp] theorem publish_cfg (f : Bytes) (s : State) : (publish f s).2.cfg = s.cfg := by rw [publish_eq]

@[simp] theorem appendBlock_cfg (d : Block) (now : Word) (s : State) : (appendBlock d now s).2.cfg = s.cfg := by
  rcases appendBlock_cases d now s with ⟨_, ha⟩ | ⟨_, ha⟩ <;> rw [ha]

@[simp] theorem finishGroup_cfg (bs : List Block) (s : State) : (finishGroup bs s).cfg = s.cfg := by
  rcases finishGroup_eq bs s with ⟨_, hg⟩ | ⟨_, hg⟩ <;> rw [hg]

theorem Presented.cfg_eq {b : Block} {s u : State} {x : Answer} (h : Presented b s x u) : u.cfg = s.cfg := by
  rcases h with ⟨_, rfl, _⟩ | ⟨_, rfl, _⟩
  · exact pushBlock_cfg b s
  · exact raiseFault_cfg 4 s

/-! ### Every operation and every step keep the parameters -/

theorem Effect.cfg_eq {i : Instr} {s u : State} {x : Answer} (h : Effect i s x u) : u.cfg = s.cfg := by
  cases i with
  | ringPush b =>
    obtain ⟨_, _, hp⟩ := h
    exact hp.cfg_eq
  | ringTryPop =>
    obtain ⟨_, _, out, hT, _⟩ := h
    exact takeFromRing_cfg hT
  | bqTryPush b =>
    obtain ⟨_, _, rfl, _⟩ := h
    exact queuePush_cfg b s
  | bqPop =>
    obtain ⟨_, _, rfl, _⟩ := h
    exact queueTake_cfg s
  | xferTick =>
    obtain ⟨_, _, _, _, hT | ⟨b, s1, hT, rfl⟩⟩ := h
    · exact takeFromRing_cfg hT
    · exact (forwardBlock_cfg b s1).trans (takeFromRing_cfg hT)
  | asmAppend d now =>
    obtain ⟨_, _, ⟨_, rfl, _⟩ | ⟨_, rfl, _⟩⟩ := h
    · exact appendBlock_cfg d now s
    · exact raiseFault_cfg 4 s
  | bstageStep =>
    obtain ⟨_, _, _, _, ⟨_, rfl⟩ | ⟨b, rest, _, ⟨_, rfl⟩ | ⟨_, bs, _, rfl⟩⟩⟩ := h
    · rfl
    · rfl
    · exact finishGroup_cfg bs _
  | sinkPublish f =>
    obtain ⟨_, _, rfl, _⟩ := h
    exact publish_cfg f s
  | capDeliver opt =>
    cases opt with
    | none => obtain ⟨_, _, rfl, _⟩ := h; rfl
    | some b => obtain ⟨_, _, hp⟩ := h; exact hp.cfg_eq
  | bqDiscard | decimate bs | frameEncode sf ts body => obtain ⟨_, _, rfl, _⟩ := h; rfl
  | ringLevel | xferStop | bstageStop | diagRead sel => obtain ⟨_, rfl, _⟩ := h; rfl
  | reset =>
    obtain ⟨_, rfl, _⟩ := h
    exact toReset_cfg s

theorem exec_cfg {i : Instr} {s t : State} (h : exec i s = .next t) : t.cfg = s.cfg := by
  rcases exec_next h with ⟨why, rfl⟩ | ⟨x, u, rfl, hE⟩
  · exact answerWith_cfg _ s
  · exact (answerWith_cfg x u).trans hE.cfg_eq

/-- Settles O38: an idle step and a refused message leave the block's state alone, and an executed operation keeps the parameters
whatever its effect (R9). -/
theorem parametersNeverChange : Obligations.ParametersNeverChange := by
  intro s t h
  rcases step_cases s with ⟨_, hs⟩ | ⟨r, rest, _, ⟨e, _, hs⟩ | ⟨i, _, hs⟩⟩ <;> rw [hs] at h
  · rw [next_eq_next h]
  · rw [refuse_eq_next.1 h, answerWith_cfg]
  · have hk := exec_cfg h
    exact hk

end Sys2Proof.Machine
end

