-- ==== Sys2Proof/Proofs/State.lean ====
section
/-! PROOFS. The state elements (spec/10_state.md): the values after reset (R40), the stop on storage that holds no value (R40), the
one writer of each element (R39), the histories that only grow (R51), and the invariant that every step keeps. -/

namespace Sys2Proof

/-! ### Requests: what decodes is well-formed (R101) -/

theorem splitBlocks_wellFormed (c : Params) {p : Bytes} (h : p.length = Config.decim * Config.blockBytes) :
    wellFormed c (.decimate (splitBlocks p)) = true := by
  simp only [Config.decim, Config.blockBytes] at h
  simp only [wellFormed, splitBlocks, isBlock, Config.decim, Config.blockBytes, List.length_map, List.length_range,
    List.all_map, Bool.and_eq_true, beq_self_eq_true, true_and, List.all_eq_true, List.mem_range, Function.comp_apply,
    List.length_take, List.length_drop, beq_iff_eq]
  omega

theorem decodeBare_wellFormed {c : Params} {op : Byte} {i j : Instr} {p : Bytes} (hi : wellFormed c i = true)
    (h : decodeBare op i p = .ok j) : wellFormed c j = true := by
  obtain ⟨_, rfl⟩ := (decodeBare_eq_ok op i j p).1 h
  exact hi

theorem decodeAsmAppend_wellFormed {c : Params} {op : Byte} {i : Instr} {p : Bytes} (h : decodeAsmAppend op p = .ok i) :
    wellFormed c i = true := by
  unfold decodeAsmAppend at h
  split at h <;> cases h
  rfl

theorem decodeCapDeliver_wellFormed {c : Params} {op : Byte} {i : Instr} {p : Bytes} (h : decodeCapDeliver op p = .ok i) :
    wellFormed c i = true := by
  unfold decodeCapDeliver at h
  split at h
  · cases h
  · split_ifs at h <;> cases h <;> rfl

theorem decodeDiagRead_wellFormed {c : Params} {op : Byte} {i : Instr} {p : Bytes} (h : decodeDiagRead op p = .ok i) :
    wellFormed c i = true := by
  unfold decodeDiagRead at h
  split at h <;> cases h
  rfl

/-- What a request decodes to has operands of the sizes R101 gives. -/
theorem decode_wellFormed {c : Params} {bytes : Bytes} {i : Instr} (h : decode c bytes = .ok i) : wellFormed c i = true := by
  cases bytes with
  | nil => cases h
  | cons op p =>
    simp only [decode, decodePayload] at h
    split at h
    -- The cases are the rows of decodePayload's table, in its order; those not named have no payload.
    case h_1 => cases h; rfl
    case h_4 => split_ifs at h with hl; cases h; simpa [wellFormed, isBlock] using hl
    case h_9 => split_ifs at h with hl; cases h; exact splitBlocks_wellFormed c hl
    case h_10 => exact decodeAsmAppend_wellFormed h
    case h_11 =>
      split_ifs at h with hl
      cases h
      simp [wellFormed, hl]
    case h_14 => split_ifs at h with hl; cases h; simpa [wellFormed] using hl
    case h_15 => exact decodeCapDeliver_wellFormed h
    case h_16 => exact decodeDiagRead_wellFormed h
    case h_18 => cases h
    all_goals exact decodeBare_wellFormed rfl h

end Sys2Proof

namespace Sys2Proof.Machine

/-! ### What the parts of the invariant speak of

Each part speaks of a few elements only; an operation that leaves those alone keeps the part. -/

theorem RingInv.congr {s t : State} (h : RingInv s) (hc : t.cfg = s.cfg := by rfl) (hs : t.slots = s.slots := by rfl)
    (hw : t.wr = s.wr := by rfl) (hr : t.rd = s.rd := by rfl) (ho : t.overruns = s.overruns := by rfl) : RingInv t where
  canonical := hs ▸ h.canonical
  blocks := by rw [hs, hc]; exact h.blocks
  retained := by simpa only [ringLevel, ringLag, slotIndex, hc, hs, hw, hr] using h.retained
  uncounted := by rw [hc, ho]; exact h.uncounted

theorem QueueInv.congr {s t : State} (h : QueueInv s) (hc : t.cfg = s.cfg := by rfl) (hb : t.bq = s.bq := by rfl) :
    QueueInv t where
  bounded := by rw [hb, hc]; exact h.bounded
  blocks := hb ▸ h.blocks

theorem GatherInv.congr {s t : State} (h : GatherInv s) (hg : t.g = s.g := by rfl) (hb : t.gbuf = s.gbuf := by rfl) :
    GatherInv t where
  canonical := hb ▸ h.canonical
  blocks := hb ▸ h.blocks
  count := hg ▸ h.count
  gathered := by rw [hg, hb]; exact h.gathered

theorem BatchInv.congr {s t : State} (h : BatchInv s) (hc : t.cfg = s.cfg := by rfl) (ha : t.a = s.a := by rfl)
    (hacc : t.acc = s.acc := by rfl) (hq : t.seq = s.seq := by rfl) (hf : t.seqFirstR = s.seqFirstR := by rfl) :
    BatchInv t where
  count := by rw [ha, hc]; exact h.count
  bodies := by rw [hacc, ha]; exact h.bodies
  numbered := by rw [ha, hq, hf]; exact h.numbered

theorem legal_ringN_pos {c : Params} (h : c.legal) : 0 < c.ringN := by
  obtain ⟨⟨e, hn⟩, _⟩ := h
  exact hn ▸ Nat.two_pow_pos e.val

theorem legal_batchK_pos {c : Params} (h : c.legal) : 0 < c.batchK := by
  obtain ⟨_, _, ⟨hk, _⟩, _⟩ := h
  exact hk

/-- The command interface is no part of the invariant. -/
theorem answerWith_inv (x : Answer) {s : State} (h : s.Inv) : (answerWith x s).Inv :=
  ⟨h.params, h.ring.congr, h.queue.congr, h.gather.congr, h.batch.congr, h.faultCode, h.traced, h.emitted⟩

theorem takenRequest_inv (rest : List Request) (who : Agent) {s : State} (h : s.Inv) :
    State.Inv { s with requests := rest, caller := who } :=
  ⟨h.params, h.ring.congr, h.queue.congr, h.gather.congr, h.batch.congr, h.faultCode, h.traced, h.emitted⟩

/-! ### The fault and RESET -/

theorem raiseFault_inv {s : State} (h : s.Inv) : (raiseFault 4 s).Inv :=
  ⟨h.params, h.ring.congr, h.queue.congr, h.gather.congr, h.batch.congr, rfl, h.traced, h.emitted⟩

/-- Nothing is stored, counted or gathered after RESET, so every part of the invariant is about nothing (R261). -/
theorem toReset_inv {s : State} (h : s.Inv) : (toReset s).Inv where
  params := h.params
  ring := ⟨rfl, by simp [toReset], by simp [toReset, ringLevel, ringLag], fun _ => rfl⟩
  queue := ⟨by simp [toReset], by simp [toReset]⟩
  gather := ⟨rfl, by simp [toReset], by simp [toReset], by simp [toReset]⟩
  batch := ⟨legal_batchK_pos h.params, by simp [toReset], by simp [toReset]⟩
  faultCode := rfl
  traced := by simp [toReset]
  emitted := h.emitted

/-! ### The Capture Ring -/

/-- A push adds one unread block at most: the level counts the new block and blocks that were retained before (R24). -/
theorem ringLevel_pushBlock_le (b : Block) (s : State) : ringLevel (pushBlock b s) ≤ ringLevel s + 1 := by
  have hlag : (s.wr + 1 - s.rd).toNat ≤ (s.wr - s.rd).toNat + 1 := by bv_omega
  simp only [ringLevel, ringLag, pushBlock_wr, pushBlock_rd, pushBlock_cfg]
  omega

theorem pushBlock_ringInv {b : Block} {s : State} (h : RingInv s) (hn : 0 < s.cfg.ringN) (hb : b.length = 512) :
    RingInv (pushBlock b s) where
  canonical := Memory.wf_write _ b h.canonical
  blocks := by
    intro e he
    rcases Memory.mem_write he with rfl | he
    · exact ⟨Nat.mod_lt _ hn, hb⟩
    · exact h.blocks e he
  retained := by
    intro k hk
    rw [pushBlock_slots, Memory.read_write]
    split_ifs with hi
    · rfl
    · cases k with
      | zero => exact absurd (by simp [slotIndex]) hi
      | succ k =>
        have hle := ringLevel_pushBlock_le b s
        have hidx : s.wr + 1 - 1 - BitVec.ofNat 32 (k + 1) = s.wr - 1 - BitVec.ofNat 32 k := by bv_omega
        rw [pushBlock_wr, hidx]
        exact h.retained k (by omega)
  uncounted := h.uncounted

theorem pushBlock_inv {b : Block} {s : State} (h : s.Inv) (hb : b.length = 512) : (pushBlock b s).Inv := by
  have hring := pushBlock_ringInv h.ring (legal_ringN_pos h.params) hb
  exact ⟨h.params, hring, h.queue.congr, h.gather.congr, h.batch.congr, h.faultCode, h.traced, h.emitted⟩

theorem Presented.inv {b : Block} {s u : State} {x : Answer} (h : Presented b s x u) (hs : s.Inv) : u.Inv := by
  rcases h with ⟨hb, rfl, _⟩ | ⟨_, rfl, _⟩
  · exact pushBlock_inv hs hb
  · exact raiseFault_inv hs

/-- Moving the read index forward keeps the ring's invariant: what is still retained was retained before (R125). -/
theorem RingInv.advance {s : State} {r o : Word} (h : RingInv s)
    (hl : ringLevel { s with rd := r, overruns := o } ≤ ringLevel s) (ho : s.cfg.overrunCountEn = false → o = 0) :
    RingInv { s with rd := r, overruns := o } :=
  ⟨h.canonical, h.blocks, fun k hk => h.retained k (hk.trans_le hl), ho⟩

/-- A pop moves the read index and the overrun counter only (R122). -/
theorem takeFromRing_frame {s u : State} {out : Option Block} (h : takeFromRing s = .ok (out, u)) :
    u = { s with rd := u.rd, overruns := u.overruns } := by
  rcases takeFromRing_cases s with ⟨_, hT⟩ | ⟨_, oldest, lost, _, ⟨_, hT⟩ | ⟨b, _, hT⟩⟩ <;> rw [hT] at h <;> cases h <;> rfl

theorem takeFromRing_ringInv {s u : State} {out : Option Block} (h : RingInv s) (hT : takeFromRing s = .ok (out, u)) :
    RingInv u := by
  rcases takeFromRing_cases s with ⟨_, hc⟩ | ⟨hne, oldest, lost, hlag, ⟨_, hc⟩ | ⟨b, _, hc⟩⟩ <;> rw [hc] at hT <;> cases hT
  · exact h
  · refine h.advance ?_ fun hen => ?_
    · rcases hlag with ⟨hover, _⟩ | ⟨_, rfl, _⟩
      · simp only [ringLevel, ringLag]
        omega
      · have hstep : (s.wr - (s.rd + 1)).toNat ≤ (s.wr - s.rd).toNat := by bv_omega
        simp only [ringLevel, ringLag]
        omega
    · have hlost : lost = 0 := by
        rcases hlag with ⟨_, _, rfl⟩ | ⟨_, _, rfl⟩
        · simp [hen]
        · rfl
      simp [h.uncounted hen, hlost]

theorem takeFromRing_inv {s u : State} {out : Option Block} (h : s.Inv) (hT : takeFromRing s = .ok (out, u)) : u.Inv := by
  have hr := takeFromRing_ringInv h.ring hT
  rw [takeFromRing_frame hT] at hr ⊢
  exact ⟨h.params, hr, h.queue.congr, h.gather.congr, h.batch.congr, h.faultCode, h.traced, h.emitted⟩

/-- The ring hands out whole blocks (R125). -/
theorem takeFromRing_block {s u : State} {b : Block} (h : RingInv s) (hT : takeFromRing s = .ok (some b, u)) :
    b.length = 512 := by
  rcases takeFromRing_cases s with ⟨_, hc⟩ | ⟨_, oldest, lost, _, ⟨_, hc⟩ | ⟨c, hread, hc⟩⟩ <;> rw [hc] at hT <;> cases hT
  exact (h.blocks _ (Memory.mem_of_read hread)).2

/-! ### The Batch Queue and the Transfer Stage -/

theorem QueueInv.append {s : State} {b : Block} (h : QueueInv s) (hroom : s.bq.length ≠ s.cfg.queueDepth)
    (hb : b.length = 512) : QueueInv { s with bq := s.bq ++ [b] } where
  bounded := by
    have := h.bounded
    simp only [List.length_append, List.length_singleton]
    omega
  blocks := by
    intro c hc
    rcases List.mem_append.1 hc with hc | hc
    · exact h.blocks c hc
    · rwa [List.mem_singleton.1 hc]

theorem QueueInv.tail {s : State} {b : Block} {rest : List Block} (h : QueueInv s) (hq : s.bq = b :: rest) :
    QueueInv { s with bq := rest } where
  bounded := by
    have := h.bounded
    rw [hq, List.length_cons] at this
    exact Nat.le_of_succ_le this
  blocks := fun c hc => h.blocks c (hq ▸ List.mem_cons_of_mem b hc)

/-- Replacing the queue by one with the queue's invariant keeps the whole. -/
theorem State.Inv.withQueue {s : State} {q : List Block} (h : s.Inv) (hq : QueueInv { s with bq := q }) :
    State.Inv { s with bq := q } :=
  ⟨h.params, h.ring.congr, hq, h.gather.congr, h.batch.congr, h.faultCode, h.traced, h.emitted⟩

theorem queuePush_inv {b : Block} {s : State} (h : s.Inv) (hb : b.length = 512) : (queuePush b s).2.Inv := by
  rcases queuePush_cases b s with ⟨_, hp⟩ | ⟨hroom, hp⟩ <;> rw [hp]
  · exact h
  · exact h.withQueue (h.queue.append hroom hb)

theorem queueTake_inv {s : State} (h : s.Inv) : (queueTake s).2.Inv := by
  rcases queueTake_cases s with ⟨_, hp⟩ | ⟨b, rest, hq, hp⟩ <;> rw [hp]
  · exact h
  · exact h.withQueue (h.queue.tail hq)

/-- Beyond its try at the queue, a tick only counts and reports (R156). -/
theorem forwardBlock_frame (b : Block) (s : State) :
    forwardBlock b s =
      { (queuePush b s).2 with
        total := (forwardBlock b s).total, drops := (forwardBlock b s).drops
        evtTrace := (forwardBlock b s).evtTrace, evtOut := (forwardBlock b s).evtOut } := by
  rcases queuePush_cases b s with ⟨hfull, hp⟩ | ⟨hroom, hp⟩ <;> rw [hp, forwardBlock_eq]
  · simp [hfull]
  · simp [hroom]

theorem forwardBlock_inv {b : Block} {s : State} (h : s.Inv) (hb : b.length = 512) : (forwardBlock b s).Inv := by
  have hp := queuePush_inv h hb
  rw [forwardBlock_frame]
  exact ⟨hp.params, hp.ring.congr, hp.queue.congr, hp.gather.congr, hp.batch.congr, hp.faultCode, hp.traced, hp.emitted⟩

/-! ### The Batch Assembler and the sink -/

theorem appendBlock_batchInv {d : Block} (now : Word) {s : State} (h : BatchInv s) (hk : 0 < s.cfg.batchK)
    (hd : d.length = 512) : BatchInv (appendBlock d now s).2 := by
  have hcount := h.count
  have hbodies := h.bodies
  rcases appendBlock_cases d now s with ⟨hmore, ha⟩ | ⟨_, ha⟩ <;> rw [ha]
  · refine ⟨?_, ?_, fun _ => ?_⟩
    · simp only; omega
    · simp only [List.length_append]; omega
    · rcases Nat.eq_zero_or_pos s.a with h0 | hpos
      · simp [h0]
      · simp only [Nat.ne_of_gt hpos, if_false, h.numbered hpos]
        bv_omega
  · exact ⟨hk, rfl, fun h0 => absurd h0 (Nat.lt_irrefl 0)⟩

theorem appendBlock_inv {d : Block} (now : Word) {s : State} (h : s.Inv) (hd : d.length = 512) :
    (appendBlock d now s).2.Inv := by
  have hb := appendBlock_batchInv now h.batch (legal_batchK_pos h.params) hd
  rcases appendBlock_cases d now s with ⟨_, ha⟩ | ⟨_, ha⟩ <;> rw [ha] at hb ⊢ <;>
    exact ⟨h.params, h.ring.congr, h.queue.congr, h.gather.congr, hb, h.faultCode, h.traced, h.emitted⟩

/-- The frame handed out has the length of R97: its body is the batch and the last block. -/
theorem appendBlock_frame_length {d : Block} {now : Word} {s : State} {f : Bytes} (h : BatchInv s) (hd : d.length = 512)
    (hf : (appendBlock d now s).1 = some f) : f.length = 30 + 512 * s.cfg.batchK := by
  have hbodies := h.bodies
  rcases appendBlock_cases d now s with ⟨_, ha⟩ | ⟨hlast, ha⟩ <;> rw [ha] at hf <;> cases hf
  rw [encodeFrame_length, List.length_append]
  omega

theorem publish_inv {f : Bytes} {s : State} (h : s.Inv) (hf : f.length = 30 + 512 * s.cfg.batchK) :
    (publish f s).2.Inv := by
  rw [publish_eq]
  refine ⟨h.params, h.ring.congr, h.queue.congr, h.gather.congr, h.batch.congr, h.faultCode, fun e he => ?_, fun e he => ?_⟩
  · rcases List.mem_append.1 he with he | he
    · exact h.traced e he
    · rwa [List.mem_singleton.1 he]
  · rcases List.mem_append.1 he with he | he
    · exact h.emitted e he
    · rw [List.mem_singleton.1 he]
      exact ⟨rfl, hf⟩

theorem countAnswer_inv (res : PubResult) {s : State} (h : s.Inv) : (countAnswer res s).Inv := by
  rw [countAnswer_eq]
  exact ⟨h.params, h.ring.congr, h.queue.congr, h.gather.congr, h.batch.congr, h.faultCode, h.traced, h.emitted⟩

/-! ### The Batch/Decimate Stage -/

theorem GatherInv.clear {s : State} (h : GatherInv s) : GatherInv { s with g := 0 } :=
  ⟨h.canonical, h.blocks, Nat.zero_lt_succ 7, fun i hi => absurd hi (Nat.not_lt_zero i)⟩

/-- Every entry of the gather buffer that a write leaves listed is a whole block at an index that exists (R29). -/
theorem GatherInv.blocks_write {s : State} {b : Block} (h : GatherInv s) (hb : b.length = 512) :
    ∀ e ∈ s.gbuf.write s.g b, e.1 < 8 ∧ e.2.length = 512 := by
  intro e he
  rcases Memory.mem_write he with rfl | he
  · exact ⟨h.count, hb⟩
  · exact h.blocks e he

/-- Gathering at `g` leaves entries 0 to `g` written, so any count up to `g + 1` describes the buffer (R29). -/
theorem GatherInv.gather {s : State} {b : Block} {n : Nat} (h : GatherInv s) (hb : b.length = 512) (hn : n ≤ s.g + 1)
    (hn8 : n < 8) : GatherInv { s with gbuf := s.gbuf.write s.g b, g := n } where
  canonical := Memory.wf_write s.g b h.canonical
  blocks := h.blocks_write hb
  count := hn8
  gathered := by
    intro i hi
    simp only [Memory.read_write] at hi ⊢
    split_ifs with hig
    · rfl
    · exact h.gathered i (by omega)

/-- A popped block gathered, with the count the step leaves: one more, or 0 when the group is complete (R212). -/
theorem gather_inv {s : State} {b : Block} {rest : List Block} {n : Nat} (h : s.Inv) (hq : s.bq = b :: rest)
    (hn : n ≤ s.g + 1) (hn8 : n < 8) : State.Inv { s with bq := rest, gbuf := s.gbuf.write s.g b, g := n } := by
  have hb : b.length = 512 := h.queue.blocks b (by simp [hq])
  exact ⟨h.params, h.ring.congr, (h.queue.tail hq).congr, (h.gather.gather hb hn hn8).congr, h.batch.congr, h.faultCode,
    h.traced, h.emitted⟩

/-- The gathered group is made of whole blocks. -/
theorem gatheredBlocks_length {m : Memory} {bs : List Block} (hm : ∀ e ∈ m, e.1 < 8 ∧ e.2.length = 512)
    (h : gatheredBlocks m = some bs) : ∀ b ∈ bs, b.length = 512 := by
  obtain ⟨hlen, hread⟩ := gatheredBlocks_eq_some.1 h
  intro b hb
  obtain ⟨k, hk, rfl⟩ := List.getElem_of_mem hb
  have hsome : m.read k = some bs[k] := (hread k (hlen ▸ hk)).trans (List.getElem?_eq_getElem hk)
  exact (hm _ (Memory.mem_of_read hsome)).2

theorem drawNow_inv {s : State} (h : s.Inv) : (drawNow s).2.Inv := by
  rw [drawNow_eq]
  exact ⟨h.params, h.ring.congr, h.queue.congr, h.gather.congr, h.batch.congr, h.faultCode, h.traced, h.emitted⟩

/-- Finishing a group: the count goes to 0, the clock is read, the group's block joins the batch, and a full batch is published,
each keeping the invariant (R212). -/
theorem finishGroup_inv {bs : List Block} {s : State} (h : s.Inv) (hbs : ∀ b ∈ bs, b.length = 512) :
    (finishGroup bs s).Inv := by
  have hd := decimateBlocks_length hbs
  have h0 : State.Inv { s with g := 0 } :=
    ⟨h.params, h.ring.congr, h.queue.congr, h.gather.clear, h.batch.congr, h.faultCode, h.traced, h.emitted⟩
  have h1 := drawNow_inv h0
  have h2 := appendBlock_inv (drawNow { s with g := 0 }).1 h1 hd
  simp only [finishGroup]
  split
  next u ha =>
    rw [ha] at h2
    exact h2
  next f u ha =>
    have hf := appendBlock_frame_length h1.batch hd (congrArg Prod.fst ha)
    rw [← appendBlock_cfg (decimateBlocks bs) (drawNow { s with g := 0 }).1, ha] at hf
    rw [ha] at h2
    exact countAnswer_inv _ (publish_inv h2 hf)

/-- The group's count plays no part once the group is complete: it is set to 0 first (R212). -/
theorem finishGroup_g (bs : List Block) (s : State) (n : Nat) : finishGroup bs { s with g := n } = finishGroup bs s := rfl

/-! ### Every operation and every step keep the invariant -/

theorem Effect.inv {i : Instr} {s u : State} {x : Answer} (h : Effect i s x u) (hs : s.Inv)
    (hw : wellFormed s.cfg i = true) : u.Inv := by
  cases i with
  | ringPush b =>
    obtain ⟨_, _, hp⟩ := h
    exact hp.inv hs
  | ringTryPop =>
    obtain ⟨_, _, out, hT, _⟩ := h
    exact takeFromRing_inv hs hT
  | bqTryPush b =>
    obtain ⟨_, _, rfl, _⟩ := h
    exact queuePush_inv hs (by simpa [wellFormed, isBlock] using hw)
  | bqPop =>
    obtain ⟨_, _, rfl, _⟩ := h
    exact queueTake_inv hs
  | bqDiscard =>
    obtain ⟨_, _, rfl, _⟩ := h
    exact hs.withQueue ⟨Nat.zero_le _, by simp⟩
  | xferTick =>
    obtain ⟨_, _, _, _, hT | ⟨b, s1, hT, rfl⟩⟩ := h
    · exact takeFromRing_inv hs hT
    · exact forwardBlock_inv (takeFromRing_inv hs hT) (takeFromRing_block hs.ring hT)
  | xferStop =>
    obtain ⟨_, rfl, _⟩ := h
    exact ⟨hs.params, hs.ring.congr, hs.queue.congr, hs.gather.congr, hs.batch.congr, hs.faultCode, hs.traced, hs.emitted⟩
  | asmAppend d now =>
    obtain ⟨_, _, ⟨hd, rfl, _⟩ | ⟨_, rfl, _⟩⟩ := h
    · exact appendBlock_inv now hs hd
    · exact raiseFault_inv hs
  | bstageStep =>
    obtain ⟨_, _, _, _, ⟨_, rfl⟩ | ⟨b, rest, hq, ⟨hlt, rfl⟩ | ⟨h7, bs, hbs, rfl⟩⟩⟩ := h
    · exact hs
    · exact gather_inv hs hq le_rfl (by omega)
    · rw [← h7] at hbs ⊢
      have h0 := gather_inv hs hq (Nat.zero_le (s.g + 1)) (by decide)
      have hwhole := gatheredBlocks_length (hs.gather.blocks_write (hs.queue.blocks b (by simp [hq]))) hbs
      rw [← finishGroup_g bs _ 0]
      exact finishGroup_inv h0 hwhole
  | bstageStop =>
    obtain ⟨_, rfl, _⟩ := h
    exact ⟨hs.params, hs.ring.congr, hs.queue.congr, hs.gather.clear.congr,
      ⟨legal_batchK_pos hs.params, rfl, fun h0 => absurd h0 (Nat.lt_irrefl 0)⟩, hs.faultCode, hs.traced, hs.emitted⟩
  | sinkPublish f =>
    obtain ⟨_, _, rfl, _⟩ := h
    have hf : f.length = s.cfg.frameBytes := by simpa [wellFormed] using hw
    refine publish_inv hs ?_
    rw [hf, Params.frameBytes, Params.bodyBytes, Nat.mul_comm]
  | capDeliver opt =>
    cases opt with
    | none => obtain ⟨_, _, rfl, _⟩ := h; exact hs
    | some b => obtain ⟨_, _, hp⟩ := h; exact hp.inv hs
  | decimate bs | frameEncode sf ts body => obtain ⟨_, _, rfl, _⟩ := h; exact hs
  | ringLevel | diagRead sel => obtain ⟨_, rfl, _⟩ := h; exact hs
  | reset =>
    obtain ⟨_, rfl, _⟩ := h
    exact toReset_inv hs

theorem exec_inv {i : Instr} {s t : State} (h : exec i s = .next t) (hs : s.Inv) (hw : wellFormed s.cfg i = true) : t.Inv := by
  rcases exec_next h with ⟨why, rfl⟩ | ⟨x, u, rfl, hE⟩
  · exact answerWith_inv _ hs
  · exact answerWith_inv x (hE.inv hs hw)

/-- Settles O47: an idle step and a refused message leave the block's elements alone, and an operation that was decoded from a
request has operands of the right sizes, so its effect keeps every part of the invariant. -/
theorem stepKeepsTheInvariant : Obligations.StepKeepsTheInvariant := by
  intro s t hs h
  rcases step_cases s with ⟨_, hstep⟩ | ⟨r, rest, _, ⟨e, _, hstep⟩ | ⟨i, hdec, hstep⟩⟩ <;> rw [hstep] at h
  · rwa [next_eq_next h]
  · rw [refuse_eq_next.1 h]
    exact answerWith_inv _ (takenRequest_inv rest r.agent hs)
  · exact exec_inv h (takenRequest_inv rest r.agent hs) (decode_wellFormed hdec)

/-! ### Reset values (R40) -/

/-- Settles O31: the fields are the literal values of the reset table, and an empty storage space reads as no value anywhere. -/
theorem resetStateHasTheGivenValues : Obligations.ResetStateHasTheGivenValues :=
  ⟨rfl, rfl, rfl, rfl, rfl, rfl, rfl, rfl, rfl, rfl, rfl, rfl, rfl, rfl, rfl, rfl, rfl, rfl,
    fun i => ⟨Memory.read_nil i, Memory.read_nil i⟩⟩

theorem reference_legal : Params.reference.legal := by decide

/-- Settles O46: the reference parameters are legal, and every other part of the invariant is about empty storage, an empty queue,
an empty batch or an empty history. -/
theorem resetStateHasTheInvariant : Obligations.ResetStateHasTheInvariant where
  params := reference_legal
  ring := ⟨rfl, by simp [State.reset], by simp [State.reset, ringLevel, ringLag], fun _ => rfl⟩
  queue := ⟨Nat.zero_le _, by simp [State.reset]⟩
  gather := ⟨rfl, by simp [State.reset], by decide, by simp [State.reset]⟩
  batch := ⟨legal_batchK_pos reference_legal, rfl, by simp [State.reset]⟩
  faultCode := rfl
  traced := by simp [State.reset]
  emitted := by simp [State.reset]

/-! ### Storage that holds no value (R40) -/

/-- A pop whose oldest retained slot holds no value stops there. -/
theorem takeFromRing_unwritten {s : State} {oldest : Word} (hne : s.rd ≠ s.wr)
    (ho : oldest = if s.cfg.ringN < (s.wr - s.rd).toNat then s.wr - ringNWord s else s.rd)
    (hread : s.slots.read (slotIndex s oldest) = none) :
    takeFromRing s = .error (.unwrittenSlot (slotIndex s oldest)) := by
  rcases takeFromRing_cases s with ⟨he, _⟩ | ⟨_, slot, lost, hlag, htake⟩
  · exact absurd he hne
  · have hslot : slot = oldest := by
      rcases hlag with ⟨hover, rfl, _⟩ | ⟨hwithin, rfl, _⟩
      · rw [ho, if_pos hover]
      · rw [ho, if_neg hwithin]
    subst hslot
    rcases htake with ⟨_, hT⟩ | ⟨b, hb, _⟩
    · exact hT
    · simp [hread] at hb

/-- A group with an entry that no pop has written, other than the entry written last, is not there to be decimated. -/
theorem gatheredBlocks_unwritten {m : Memory} {b : Block} {i : Nat} (hi : i < 7) (hread : m.read i = none) :
    gatheredBlocks (m.write 7 b) = none := by
  by_contra hsome
  obtain ⟨bs, hbs⟩ := Option.ne_none_iff_exists'.1 hsome
  obtain ⟨hlen, hall⟩ := gatheredBlocks_eq_some.1 hbs
  have hentry := hall i (by omega)
  rw [Memory.read_write, if_neg (by omega), hread, List.getElem?_eq_getElem (by omega)] at hentry
  cases hentry

theorem gatherBlock_noEntry {b : Block} {s : State} (h : 8 ≤ s.g) : gatherBlock b s = .fault (.noGatherEntry s.g) := if_pos h

theorem gatherBlock_unwritten {b : Block} {s : State} (h : s.g = 7) (hnone : gatheredBlocks (s.gbuf.write 7 b) = none) :
    gatherBlock b s = .fault .unwrittenGather := by
  rcases gatherBlock_cases b s with ⟨h8, _⟩ | ⟨hlt, _⟩ | ⟨_, _, hg⟩ | ⟨_, bs, hbs, _⟩
  · omega
  · omega
  · exact hg
  · rw [hnone] at hbs
    cases hbs

theorem exec_ringTryPop_error {s : State} {f : Fault} (hc : s.caller = .T) (hf : s.fault = false)
    (hT : takeFromRing s = .error f) : exec .ringTryPop s = .fault f := by
  refine (ifAdmitted_pos hc hf).trans ?_
  rw [hT]

theorem exec_xferTick_error {s : State} {f : Fault} (hc : s.caller = .T) (hf : s.fault = false) (hrun : s.tRun = true)
    (hT : takeFromRing s = .error f) : exec .xferTick s = .fault f := by
  refine (ifAdmitted_pos hc hf).trans ((ifRunning_pos hrun).trans ?_)
  rw [hT]

/-- For its owner on a running stage, BSTAGE.STEP gathers the block at the head of the queue (R212). -/
theorem exec_bstageStep_cons {s : State} {b : Block} {rest : List Block} (hc : s.caller = .B) (hf : s.fault = false)
    (hrun : s.bRun = true) (hq : s.bq = b :: rest) : exec .bstageStep s = gatherBlock b { s with bq := rest } := by
  refine (ifAdmitted_pos hc hf).trans ((ifRunning_pos hrun).trans ?_)
  simp only [queueTake, hq]

/-- Settles O48: a pop that finds no value, a gather past the buffer, and a group with an unwritten entry each end in the fault of
that name. -/
theorem unwrittenStorageStopsByName : Obligations.UnwrittenStorageStopsByName := by
  intro s hf
  refine ⟨fun oldest hc hne ho hread => ?_, fun b rest hc hrun hq => ?_⟩
  · have hT := takeFromRing_unwritten hne ho hread
    exact ⟨exec_ringTryPop_error hc hf hT, fun hrun => exec_xferTick_error hc hf hrun hT⟩
  · rw [exec_bstageStep_cons hc hf hrun hq]
    exact ⟨fun h8 => gatherBlock_noEntry h8,
      fun i hi h7 hread => gatherBlock_unwritten h7 (gatheredBlocks_unwritten hi hread)⟩

/-! ### The histories only grow (R51) -/

/-- The two traces and the two output ports keep what they have and grow at their end. -/
def HistoryGrows (s t : State) : Prop :=
  s.pubOut <+: t.pubOut ∧ s.evtOut <+: t.evtOut ∧ s.pubTrace <+: t.pubTrace ∧ s.evtTrace <+: t.evtTrace

theorem HistoryGrows.of_kept {s t : State} (hp : t.pubOut = s.pubOut := by rfl) (he : t.evtOut = s.evtOut := by rfl)
    (hpt : t.pubTrace = s.pubTrace := by rfl) (het : t.evtTrace = s.evtTrace := by rfl) : HistoryGrows s t :=
  ⟨hp ▸ List.prefix_rfl, he ▸ List.prefix_rfl, hpt ▸ List.prefix_rfl, het ▸ List.prefix_rfl⟩

theorem HistoryGrows.trans {s t u : State} (h : HistoryGrows s t) (h' : HistoryGrows t u) : HistoryGrows s u := by
  obtain ⟨hp, he, hpt, het⟩ := h
  obtain ⟨hp', he', hpt', het'⟩ := h'
  exact ⟨hp.trans hp', he.trans he', hpt.trans hpt', het.trans het'⟩

theorem Presented.historyGrows {b : Block} {s u : State} {x : Answer} (h : Presented b s x u) : HistoryGrows s u := by
  rcases h with ⟨_, rfl, _⟩ | ⟨_, rfl, _⟩
  · exact .of_kept
  · exact .of_kept

theorem takeFromRing_historyGrows {s u : State} {out : Option Block} (h : takeFromRing s = .ok (out, u)) :
    HistoryGrows s u := by
  rw [takeFromRing_frame h]
  exact .of_kept

theorem forwardBlock_historyGrows (b : Block) (s : State) : HistoryGrows s (forwardBlock b s) := by
  rw [forwardBlock_eq]
  by_cases hreport : (s.total + 1).toNat % s.cfg.evtPeriod = 0
  · simp only [hreport, if_true]
    exact ⟨List.prefix_rfl, List.prefix_append _ _, List.prefix_rfl, List.prefix_append _ _⟩
  · simp only [hreport, if_false]
    exact .of_kept

theorem publish_historyGrows (f : Bytes) (s : State) : HistoryGrows s (publish f s).2 := by
  rw [publish_eq]
  exact ⟨List.prefix_append _ _, List.prefix_rfl, List.prefix_append _ _, List.prefix_rfl⟩

theorem appendBlock_historyGrows (d : Block) (now : Word) (s : State) : HistoryGrows s (appendBlock d now s).2 := by
  rcases appendBlock_cases d now s with ⟨_, ha⟩ | ⟨_, ha⟩ <;> rw [ha] <;> exact .of_kept

theorem finishGroup_historyGrows (bs : List Block) (s : State) : HistoryGrows s (finishGroup bs s) := by
  rcases finishGroup_eq bs s with ⟨_, hg⟩ | ⟨_, hg⟩ <;> rw [hg]
  · exact .of_kept
  · exact ⟨List.prefix_append _ _, List.prefix_rfl, List.prefix_append _ _, List.prefix_rfl⟩

theorem Effect.historyGrows {i : Instr} {s u : State} {x : Answer} (h : Effect i s x u) (hi : i ≠ .reset) :
    HistoryGrows s u := by
  cases i with
  | ringPush b =>
    obtain ⟨_, _, hp⟩ := h
    exact hp.historyGrows
  | ringTryPop =>
    obtain ⟨_, _, out, hT, _⟩ := h
    exact takeFromRing_historyGrows hT
  | bqTryPush b =>
    obtain ⟨_, _, rfl, _⟩ := h
    rcases queuePush_cases b s with ⟨_, hq⟩ | ⟨_, hq⟩ <;> rw [hq] <;> exact .of_kept
  | bqPop =>
    obtain ⟨_, _, rfl, _⟩ := h
    rcases queueTake_cases s with ⟨_, hq⟩ | ⟨_, _, _, hq⟩ <;> rw [hq] <;> exact .of_kept
  | xferTick =>
    obtain ⟨_, _, _, _, hT | ⟨b, s1, hT, rfl⟩⟩ := h
    · exact takeFromRing_historyGrows hT
    · exact (takeFromRing_historyGrows hT).trans (forwardBlock_historyGrows b s1)
  | asmAppend d now =>
    obtain ⟨_, _, ⟨_, rfl, _⟩ | ⟨_, rfl, _⟩⟩ := h
    · exact appendBlock_historyGrows d now s
    · exact .of_kept
  | bstageStep =>
    obtain ⟨_, _, _, _, ⟨_, rfl⟩ | ⟨b, rest, _, ⟨_, rfl⟩ | ⟨_, bs, _, rfl⟩⟩⟩ := h
    · exact .of_kept
    · exact .of_kept
    · exact (HistoryGrows.of_kept (s := s)).trans (finishGroup_historyGrows bs _)
  | sinkPublish f =>
    obtain ⟨_, _, rfl, _⟩ := h
    exact publish_historyGrows f s
  | capDeliver opt =>
    cases opt with
    | none => obtain ⟨_, _, rfl, _⟩ := h; exact .of_kept
    | some b => obtain ⟨_, _, hp⟩ := h; exact hp.historyGrows
  | bqDiscard | decimate bs | frameEncode sf ts body => obtain ⟨_, _, rfl, _⟩ := h; exact .of_kept
  | ringLevel | xferStop | bstageStop | diagRead sel => obtain ⟨_, rfl, _⟩ := h; exact .of_kept
  | reset => exact absurd rfl hi

/-- Settles O37: a refusal touches no history, RESET leaves the ports as they are, and every other effect only appends. -/
theorem emittedHistoryOnlyGrows : Obligations.EmittedHistoryOnlyGrows := by
  intro i s t h
  rcases exec_next h with ⟨why, rfl⟩ | ⟨x, u, rfl, hE⟩
  · exact ⟨List.prefix_rfl, List.prefix_rfl, fun _ => ⟨List.prefix_rfl, List.prefix_rfl⟩⟩
  · by_cases hi : i = .reset
    · subst hi
      obtain ⟨_, rfl, _⟩ := hE
      exact ⟨List.prefix_rfl, List.prefix_rfl, fun hne => absurd rfl hne⟩
    · obtain ⟨hp, he, htraces⟩ := hE.historyGrows hi
      exact ⟨hp, he, fun _ => htraces⟩

/-! ### The one writer of each element (R39) -/

/-- Each element of the state that differs between `s` and `t` was written by its one writer, or by RESET, or is part of what
BSTAGE.STOP discards (R39, R216). -/
def WrittenByItsWriter (i : Instr) (s t : State) : Prop :=
  let reset : Prop := s.caller = .H ∧ i = .reset
  (t.slots ≠ s.slots ∨ t.wr ≠ s.wr → s.caller = .P ∨ reset) ∧
  (t.rd ≠ s.rd ∨ t.overruns ≠ s.overruns ∨ t.drops ≠ s.drops ∨ t.total ≠ s.total → s.caller = .T ∨ reset) ∧
  (t.bq ≠ s.bq →
    (s.caller = .T ∧ ∃ b, t.bq = s.bq ++ [b]) ∨ (s.caller = .B ∧ ∃ b, s.bq = b :: t.bq) ∨
      (s.caller = .H ∧ i = .bqDiscard ∧ t.bq = []) ∨ reset) ∧
  (t.gbuf ≠ s.gbuf ∨ t.seqFirstR ≠ s.seqFirstR ∨ t.ts0 ≠ s.ts0 ∨ t.seq ≠ s.seq ∨ t.sinkNotReady ≠ s.sinkNotReady ∨
    t.sinkError ≠ s.sinkError → s.caller = .B ∨ reset) ∧
  (t.g ≠ s.g ∨ t.a ≠ s.a ∨ t.acc ≠ s.acc → s.caller = .B ∨ (s.caller = .H ∧ i = .bstageStop) ∨ reset) ∧
  (t.tRun ≠ s.tRun ∨ t.bRun ≠ s.bRun → s.caller = .H) ∧
  (t.fault ≠ s.fault ∨ t.faultCode ≠ s.faultCode →
    reset ∨ ((s.caller = .P ∨ s.caller = .B) ∧ t.fault = true ∧ t.faultCode = 4))

theorem writtenByItsWriter_answerWith (i : Instr) (s : State) (x : Answer) : WrittenByItsWriter i s (answerWith x s) := by
  simp [WrittenByItsWriter]

theorem Presented.writtenByItsWriter {i : Instr} {b : Block} {s u : State} {x : Answer} (h : Presented b s x u)
    (hc : s.caller = .P) : WrittenByItsWriter i s u := by
  rcases h with ⟨_, rfl, _⟩ | ⟨_, rfl, _⟩ <;> simp [WrittenByItsWriter, hc]

theorem Effect.writtenByItsWriter {i : Instr} {s u : State} {x : Answer} (h : Effect i s x u) : WrittenByItsWriter i s u := by
  cases i with
  | ringPush b =>
    obtain ⟨hc, _, hp⟩ := h
    exact hp.writtenByItsWriter hc
  | ringTryPop =>
    obtain ⟨hc, _, out, hT, _⟩ := h
    rw [takeFromRing_frame hT]
    simp [WrittenByItsWriter, hc]
  | bqTryPush b =>
    obtain ⟨hc, _, rfl, _⟩ := h
    rcases queuePush_cases b s with ⟨_, hq⟩ | ⟨_, hq⟩ <;> rw [hq] <;> simp [WrittenByItsWriter, hc]
  | bqPop =>
    obtain ⟨hc, _, rfl, _⟩ := h
    rcases queueTake_cases s with ⟨_, hq⟩ | ⟨b, rest, hb, hq⟩ <;> rw [hq]
    · simp [WrittenByItsWriter]
    · simp [WrittenByItsWriter, hc, hb]
  | bqDiscard =>
    obtain ⟨hc, _, rfl, _⟩ := h
    simp [WrittenByItsWriter, hc]
  | xferTick =>
    obtain ⟨hc, _, _, _, hT | ⟨b, s1, hT, rfl⟩⟩ := h
    · rw [takeFromRing_frame hT]
      simp [WrittenByItsWriter, hc]
    · rw [takeFromRing_frame hT, forwardBlock_eq]
      by_cases hfull : s.bq.length = s.cfg.queueDepth <;> simp [WrittenByItsWriter, hc, hfull]
  | asmAppend d now =>
    obtain ⟨hc, _, ⟨_, rfl, _⟩ | ⟨_, rfl, _⟩⟩ := h
    · rcases appendBlock_cases d now s with ⟨_, ha⟩ | ⟨_, ha⟩ <;> rw [ha] <;> simp [WrittenByItsWriter, hc]
    · simp [WrittenByItsWriter, hc]
  | bstageStep =>
    obtain ⟨hc, _, _, _, ⟨_, rfl⟩ | ⟨b, rest, hq, ⟨_, rfl⟩ | ⟨_, bs, _, rfl⟩⟩⟩ := h
    · simp [WrittenByItsWriter]
    · simp [WrittenByItsWriter, hc, hq]
    · rcases finishGroup_eq bs { s with bq := rest, gbuf := s.gbuf.write 7 b, g := 8 } with ⟨_, hg⟩ | ⟨_, hg⟩ <;> rw [hg] <;>
        simp [WrittenByItsWriter, hc, hq]
  | sinkPublish f =>
    obtain ⟨hc, _, rfl, _⟩ := h
    rw [publish_eq]
    simp [WrittenByItsWriter]
  | capDeliver opt =>
    cases opt with
    | none => obtain ⟨_, _, rfl, _⟩ := h; simp [WrittenByItsWriter]
    | some b => obtain ⟨hc, _, hp⟩ := h; exact hp.writtenByItsWriter hc
  | xferStop | bstageStop | reset =>
    obtain ⟨hc, rfl, _⟩ := h
    simp [WrittenByItsWriter, hc]
  | decimate bs | frameEncode sf ts body => obtain ⟨_, _, rfl, _⟩ := h; simp [WrittenByItsWriter]
  | ringLevel | diagRead sel => obtain ⟨_, rfl, _⟩ := h; simp [WrittenByItsWriter]

/-- Settles O34: a refusal writes nothing, and an effect writes only what belongs to the agent that owns the operation. -/
theorem eachElementHasOneWriter : Obligations.EachElementHasOneWriter := by
  intro i s t h
  rcases exec_next h with ⟨why, rfl⟩ | ⟨x, u, rfl, hE⟩
  · exact writtenByItsWriter_answerWith i s _
  · exact hE.writtenByItsWriter

end Sys2Proof.Machine
end

