-- ==== Sys2Proof/Proofs/Memory.lean ====
section
/-! PROOFS. Atomicity and the schedule (spec/20_memory.md R66, R67): the step runs the request at the head of the schedule. -/

namespace Sys2Proof.Machine

theorem step_idle {s : State} (hq : s.requests = []) : step s = .next s := by
  rcases step_cases s with ⟨_, hstep⟩ | ⟨r, rest, hcons, _⟩
  · exact hstep
  · simp [hq] at hcons

/-- The two things a step can do with a request that waits. -/
theorem step_cons {s : State} {r : Request} {rest : List Request} (hq : s.requests = r :: rest) :
    (∃ e, decode s.cfg r.bytes = .bad e ∧
      step s = refuse (.notAnOperation e) { s with requests := rest, caller := r.agent }) ∨
    ∃ i, decode s.cfg r.bytes = .ok i ∧ step s = exec i { s with requests := rest, caller := r.agent } := by
  rcases step_cases s with ⟨hnil, _⟩ | ⟨r', rest', hcons, hstep⟩
  · simp [hq] at hnil
  · obtain ⟨rfl, rfl⟩ := List.cons.inj (hq.symm.trans hcons)
    exact hstep

theorem step_decoded {s : State} {r : Request} {rest : List Request} {i : Instr} (hq : s.requests = r :: rest)
    (hd : decode s.cfg r.bytes = .ok i) : step s = exec i { s with requests := rest, caller := r.agent } := by
  rcases step_cons hq with ⟨e, hbad, _⟩ | ⟨j, hok, hstep⟩
  · cases hd.symm.trans hbad
  · cases hd.symm.trans hok
    exact hstep

theorem step_undecoded {s : State} {r : Request} {rest : List Request} {e : DecodeError} (hq : s.requests = r :: rest)
    (hd : decode s.cfg r.bytes = .bad e) :
    step s = refuse (.notAnOperation e) { s with requests := rest, caller := r.agent } := by
  rcases step_cons hq with ⟨e', hbad, hstep⟩ | ⟨j, hok, _⟩
  · cases hd.symm.trans hbad
    exact hstep
  · cases hd.symm.trans hok

/-- Settles O40: a waiting request that decodes is executed, one that does not is refused, and with none waiting the step is
idle; a refusal writes only the answer. -/
theorem stepExecutesTheDecodedRequest : Obligations.StepExecutesTheDecodedRequest :=
  ⟨fun _ _ _ _ hq hd => step_decoded hq hd, fun _ _ _ _ hq hd => step_undecoded hq hd, fun _ hq => step_idle hq⟩

end Sys2Proof.Machine
end

