-- ==== Sys2Proof/Proofs/Encoding.lean ====
section
/-! PROOFS. The encodings (spec/30_encoding.md): requests (R100, R101) decode and encode as each other's inverse, samples (R87) and
frames (R98) give back what they were built from, and decimation does not see the high bytes (R85). -/

namespace Sys2Proof

/-! ### A DECIMATE payload: blocks one after another (R101) -/

/-- The first `n` blocks that stand one after another in a byte string. -/
def firstBlocks (n : Nat) (p : Bytes) : List Block :=
  (List.range n).map fun k => (p.drop (Config.blockBytes * k)).take Config.blockBytes

theorem splitBlocks_eq_firstBlocks (p : Bytes) : splitBlocks p = firstBlocks Config.decim p := rfl

theorem firstBlocks_succ (n : Nat) (p : Bytes) :
    firstBlocks (n + 1) p = p.take Config.blockBytes :: firstBlocks n (p.drop Config.blockBytes) := by
  simp [firstBlocks, List.range_succ_eq_map, Function.comp_def, Nat.mul_succ, Nat.add_comm]

theorem firstBlocks_flatten {bs : List Block} (h : ∀ b ∈ bs, b.length = Config.blockBytes) :
    firstBlocks bs.length bs.flatten = bs := by
  induction bs with
  | nil => rfl
  | cons b rest ih =>
    obtain ⟨hb, hrest⟩ := List.forall_mem_cons.1 h
    rw [List.length_cons, List.flatten_cons, firstBlocks_succ, List.take_left' hb, List.drop_left' hb, ih hrest]

theorem flatten_firstBlocks {n : Nat} {p : Bytes} (h : p.length = n * Config.blockBytes) : (firstBlocks n p).flatten = p := by
  induction n generalizing p with
  | zero => exact (List.length_eq_zero_iff.1 (by simpa using h)).symm
  | succ n ih =>
    have hdrop : (p.drop Config.blockBytes).length = n * Config.blockBytes := by
      rw [List.length_drop, h, Nat.succ_mul, Nat.add_sub_cancel]
    rw [firstBlocks_succ, List.flatten_cons, ih hdrop, List.take_append_drop]

/-! ### Words inside a payload (R12) -/

theorem byteAt_eq_getElem {b : Bytes} {k : Nat} (h : k < b.length) : byteAt b k = b[k] := List.getD_eq_getElem b 0 h

/-! A field of fixed size stands before the offset that is read: skip it. -/

theorem byteAt_le16_append (v : BitVec 16) (b : Bytes) (k : Nat) : byteAt (le16 v ++ b) (k + 2) = byteAt b k := rfl
theorem byteAt_le32_append (v : Word) (b : Bytes) (k : Nat) : byteAt (le32 v ++ b) (k + 4) = byteAt b k := rfl
theorem rdLe16_cons_succ (x : Byte) (b : Bytes) (k : Nat) : rdLe16 (x :: b) (k + 1) = rdLe16 b k := rfl
theorem rdLe16_le16_append (v : BitVec 16) (b : Bytes) (k : Nat) : rdLe16 (le16 v ++ b) (k + 2) = rdLe16 b k := rfl
theorem rdLe16_le32_append (v : Word) (b : Bytes) (k : Nat) : rdLe16 (le32 v ++ b) (k + 4) = rdLe16 b k := rfl
theorem rdLe32_cons_succ (x : Byte) (b : Bytes) (k : Nat) : rdLe32 (x :: b) (k + 1) = rdLe32 b k := rfl
theorem rdLe32_le16_append (v : BitVec 16) (b : Bytes) (k : Nat) : rdLe32 (le16 v ++ b) (k + 2) = rdLe32 b k := rfl
theorem rdLe32_le32_append (v : Word) (b : Bytes) (k : Nat) : rdLe32 (le32 v ++ b) (k + 4) = rdLe32 b k := rfl

/-- Reading a word and writing it back copies the four bytes that stand there. -/
theorem le32_rdLe32_eq_take {b : Bytes} {off : Nat} (h : off + 4 ≤ b.length) : le32 (rdLe32 b off) = (b.drop off).take 4 := by
  rw [le32_rdLe32, byteAt_eq_getElem (by omega), byteAt_eq_getElem (by omega), byteAt_eq_getElem (by omega),
    byteAt_eq_getElem (by omega), List.drop_eq_getElem_cons (by omega), List.drop_eq_getElem_cons (by omega),
    List.drop_eq_getElem_cons (by omega), List.drop_eq_getElem_cons (by omega)]
  rfl

/-! ### Decoding an encoded operation -/

theorem decode_encode_decimate (c : Params) {bs : List Block} (h : wellFormed c (.decimate bs) = true) :
    decode c (encode (.decimate bs)) = .ok (.decimate bs) := by
  simp only [wellFormed, isBlock, Bool.and_eq_true, beq_iff_eq, List.all_eq_true] at h
  obtain ⟨hcount, hblocks⟩ := h
  have hlen : bs.flatten.length = Config.decim * Config.blockBytes := by
    rw [List.length_flatten, List.map_congr_left hblocks, List.map_const', List.sum_replicate, hcount, smul_eq_mul]
  rw [encode, opSelect, encodePayload, decode_decimate, if_pos hlen, splitBlocks_eq_firstBlocks, ← hcount,
    firstBlocks_flatten hblocks]

theorem decode_encode_asmAppend (c : Params) (b : Block) (now : Word) :
    decode c (encode (.asmAppend b now)) = .ok (.asmAppend b now) := by
  have hlen : (b ++ le32 now).length = b.length + 4 := List.length_append
  have hnow : rdLe32 (b ++ le32 now) b.length = now := rdLe32_at (post := []) b (by rw [List.append_nil]) rfl
  rw [encode, opSelect, encodePayload, decode_asmAppend, decodeAsmAppend, if_neg (by omega), hlen, Nat.add_sub_cancel,
    List.take_left, hnow]

theorem decode_encode_frameEncode {c : Params} {sf ts : Word} {body : Bytes} (h : wellFormed c (.frameEncode sf ts body) = true) :
    decode c (encode (.frameEncode sf ts body)) = .ok (.frameEncode sf ts body) := by
  have hbody : body.length = c.bodyBytes := by simpa [wellFormed] using h
  have hlen : (le32 sf ++ le32 ts ++ body).length = 8 + c.bodyBytes := by
    simp only [List.length_append, le32_length, hbody]
  have hsf : rdLe32 (le32 sf ++ le32 ts ++ body) 0 = sf := rdLe32_le32 sf (le32 ts ++ body)
  have hts : rdLe32 (le32 sf ++ le32 ts ++ body) 4 = ts := rdLe32_at (le32 sf) (List.append_assoc _ _ body) rfl
  rw [encode, opSelect, encodePayload, decode_frameEncode, if_pos hlen, hsf, hts]
  rfl

/-- Settles O43: an operation without operands has the empty payload, a single block or byte is its own payload under the length
its well-formedness gives, and the payloads made of parts come apart at fixed places. -/
theorem decodeOfEncodeGivesTheInstruction : Obligations.DecodeOfEncodeGivesTheInstruction := by
  intro c i h
  cases i with
  | bqTryPush b => exact if_pos (by simpa [wellFormed, isBlock, encodePayload] using h)
  | sinkPublish frame => exact if_pos (by simpa [wellFormed, encodePayload] using h)
  | decimate bs => exact decode_encode_decimate c h
  | asmAppend b now => exact decode_encode_asmAppend c b now
  | frameEncode sf ts body => exact decode_encode_frameEncode h
  | capDeliver opt => cases opt <;> rfl
  | ringPush | ringTryPop | ringLevel | bqPop | bqDiscard | xferTick | xferStop | bstageStep | bstageStop | diagRead | reset => rfl

/-- A request that is an operation's encoding decodes to that operation. -/
theorem decode_of_encode_eq {c : Params} {i : Instr} {bytes : Bytes} (hb : encode i = bytes) (h : wellFormed c i = true) :
    decode c bytes = .ok i := hb ▸ decodeOfEncodeGivesTheInstruction c i h

/-- Settles O45: the seven requests are the encodings of the operations they stand for. -/
theorem sampleRequestsDecode : Obligations.SampleRequestsDecode :=
  ⟨decode_of_encode_eq rfl rfl, decode_of_encode_eq rfl rfl, decode_of_encode_eq rfl rfl, decode_of_encode_eq rfl rfl,
    decode_of_encode_eq rfl rfl, decode_of_encode_eq rfl rfl, decode_of_encode_eq rfl rfl⟩

/-! ### Encoding what a request decodes to -/

theorem encode_of_decodeBare {op : Byte} {i j : Instr} {p : Bytes} (hi : encode i = [op]) (h : decodeBare op i p = .ok j) :
    encode j = op :: p := by
  obtain ⟨rfl, rfl⟩ := (decodeBare_eq_ok op i j p).1 h
  exact hi

theorem encode_of_decodeAsmAppend {i : Instr} {p : Bytes} (h : decodeAsmAppend 0x40 p = .ok i) : encode i = 0x40 :: p := by
  unfold decodeAsmAppend at h
  split at h <;> cases h
  have hword : le32 (rdLe32 p (p.length - 4)) = p.drop (p.length - 4) := by
    rw [le32_rdLe32_eq_take (by omega), List.take_of_length_le (by rw [List.length_drop]; omega)]
  rw [encode, opSelect, encodePayload, hword, List.take_append_drop]

theorem encode_of_decodeCapDeliver {i : Instr} {p : Bytes} (h : decodeCapDeliver 0x70 p = .ok i) : encode i = 0x70 :: p := by
  cases p with
  | nil => cases h
  | cons present b =>
    simp only [decodeCapDeliver] at h
    split_ifs at h with hnone hsome <;> cases h
    · obtain ⟨rfl, rfl⟩ := hnone
      rfl
    · subst hsome
      rfl

theorem encode_of_decodeDiagRead {i : Instr} {p : Bytes} (h : decodeDiagRead 0x7E p = .ok i) : encode i = 0x7E :: p := by
  unfold decodeDiagRead at h
  split at h <;> cases h
  rfl

theorem encode_decimate_splitBlocks {p : Bytes} (h : p.length = Config.decim * Config.blockBytes) :
    encode (.decimate (splitBlocks p)) = 0x30 :: p := by
  rw [encode, opSelect, encodePayload, splitBlocks_eq_firstBlocks, flatten_firstBlocks h]

theorem encode_frameEncode_rdLe32 {p : Bytes} (h : 8 ≤ p.length) :
    encode (.frameEncode (rdLe32 p 0) (rdLe32 p 4) (p.drop 8)) = 0x41 :: p := by
  have hparts : p.take 4 ++ (p.drop 4).take 4 ++ p.drop 8 = p := by
    rw [← List.take_add, List.take_append_drop]
  rw [encode, opSelect, encodePayload, le32_rdLe32_eq_take (by omega), le32_rdLe32_eq_take (by omega), List.drop_zero, hparts]

theorem eq_ofNat_of_toNat_eq {op : Byte} {k : Nat} (h : op.toNat = k) : op = BitVec.ofNat 8 k := by
  rw [← h, BitVec.ofNat_toNat, BitVec.setWidth_eq]

/-- A request that decodes is the encoding of what it decodes to. -/
theorem encode_of_decode {c : Params} {bytes : Bytes} {i : Instr} (h : decode c bytes = .ok i) : encode i = bytes := by
  cases bytes with
  | nil => cases h
  | cons op p =>
    simp only [decode, decodePayload] at h
    split at h
    -- The cases are the rows of decodePayload's table, in its order; those not named have no payload.
    case h_18 => cases h
    all_goals
      rename_i hop
      obtain rfl := eq_ofNat_of_toNat_eq hop
    case h_1 => cases h; rfl
    case h_4 => split_ifs at h; cases h; rfl
    case h_9 => split_ifs at h with hl; cases h; exact encode_decimate_splitBlocks hl
    case h_10 => exact encode_of_decodeAsmAppend h
    case h_11 => split_ifs at h with hl; cases h; exact encode_frameEncode_rdLe32 (by omega)
    case h_14 => split_ifs at h; cases h; rfl
    case h_15 => exact encode_of_decodeCapDeliver h
    case h_16 => exact encode_of_decodeDiagRead h
    all_goals exact encode_of_decodeBare rfl h

/-- Settles O44: the decoder keeps every byte of a request it accepts, and accepts only payloads of R101's sizes. -/
theorem encodeOfDecodeGivesTheRequest : Obligations.EncodeOfDecodeGivesTheRequest :=
  fun _ _ _ h => ⟨encode_of_decode h, decode_wellFormed h⟩

end Sys2Proof

namespace Sys2Proof.Machine

/-! ### Samples (R83 to R87) -/

theorem setWidth_extract_low24 (w : Word) : (w.extractLsb' 0 24).setWidth 32 = w &&& 0x00FFFFFF#32 := by
  apply BitVec.eq_of_toNat_eq
  have hmask : w.toNat &&& 16777215 = w.toNat % 2 ^ 24 := Nat.and_two_pow_sub_one_eq_mod w.toNat 24
  simp only [BitVec.toNat_setWidth, BitVec.extractLsb'_toNat, Nat.shiftRight_zero, BitVec.toNat_and, BitVec.toNat_ofNat,
    Nat.reduceMod, Nat.reducePow, hmask]
  omega

theorem extract_low24_setWidth (x : BitVec 24) : (x.setWidth 32).extractLsb' 0 24 = x := by
  apply BitVec.eq_of_toNat_eq
  have hx := x.isLt
  simp only [BitVec.extractLsb'_toNat, BitVec.toNat_setWidth, Nat.shiftRight_zero]
  omega

theorem encodeSample_decodeSample (w : Word) : encodeSample (decodeSample w) = w &&& 0x00FFFFFF#32 := by
  rw [encodeSample, decodeSample, BitVec.ofInt_toInt, setWidth_extract_low24]

theorem decodeSample_encodeSample {v : Int} (hlo : -8388608 ≤ v) (hhi : v ≤ 8388607) : decodeSample (encodeSample v) = v := by
  rw [encodeSample, decodeSample, extract_low24_setWidth, BitVec.toInt_ofInt]
  exact Int.bmod_eq_of_le (by omega) (by omega)

/-- Settles O14: repacking zero-extends the low 24 bits that decoding read, and a sample fits in 24 bits. -/
theorem sampleRoundTrip : Obligations.SampleRoundTrip :=
  ⟨encodeSample_decodeSample, fun _ hlo hhi => decodeSample_encodeSample hlo hhi⟩

/-! ### Decimation reads the low 24 bits of each slot (R85) -/

theorem samplesOf_congr {b b' : Block} (hb : b.length = 512) (hb' : b'.length = 512)
    (h : ∀ j < 128, (rdLe32 b (4 * j)).extractLsb' 0 24 = (rdLe32 b' (4 * j)).extractLsb' 0 24) : samplesOf b = samplesOf b' := by
  rw [samplesOf_eq 128 b hb, samplesOf_eq 128 b' hb']
  exact List.map_congr_left fun j hj => congrArg BitVec.toInt (h j (List.mem_range.1 hj))

theorem decimateBlocks_congr {bs bs' : List Block} (h : bs.map samplesOf = bs'.map samplesOf) :
    decimateBlocks bs = decimateBlocks bs' := by
  have hsums : laneSums bs = laneSums bs' := by simp only [laneSums, ← List.foldl_map, h]
  rw [decimateBlocks, decimateBlocks, hsums]

/-- Settles O19: blocks that agree below the high bytes have the same samples, and the engine sees a block's samples only. -/
theorem decimationIgnoresHighBytes : Obligations.DecimationIgnoresHighBytes := by
  intro bs bs' h
  apply decimateBlocks_congr
  induction h with
  | nil => rfl
  | cons hb _ ih =>
    obtain ⟨hlen, hlen', hlow⟩ := hb
    rw [List.map_cons, List.map_cons, samplesOf_congr hlen hlen' hlow, ih]

/-! ### Frames (R89, R98)

A field is read by skipping the fields before it, whose lengths are known. -/

theorem encodeFrame_blockCount (c : Params) (sf ts : Word) (body : Bytes) :
    rdLe16 (encodeFrame c sf ts body) 12 = BitVec.ofNat 16 c.batchK := by
  simp [encodeFrame_layout, rdLe16_cons_succ, rdLe16_le16_append, rdLe16_le32_append, rdLe16_le16]

theorem encodeFrame_blockSize (c : Params) (sf ts : Word) (body : Bytes) : rdLe16 (encodeFrame c sf ts body) 14 = 512 := by
  simp [encodeFrame_layout, rdLe16_cons_succ, rdLe16_le16_append, rdLe16_le32_append, rdLe16_le16]

theorem encodeFrame_drop_header (c : Params) (sf ts : Word) (body : Bytes) : (encodeFrame c sf ts body).drop 30 = body :=
  List.drop_left' (frameHeader_length c sf ts)

theorem decodeFrame_encodeFrame {c : Params} (sf ts : Word) {body : Bytes} (hk : c.batchK ≤ 65535)
    (hbody : body.length = 512 * c.batchK) :
    decodeFrame (encodeFrame c sf ts body) =
      { magic := [0x4A, 0x51, 0x4D, 0x42], version := 2, flags := 3, headerLen := 24, seqFirst := sf,
        blockCount := BitVec.ofNat 16 c.batchK, blockSize := 512, tsMs := ts, sampleRateHz := c.sampleRateHz,
        channelCount := 2, wordBits := 24, slotBits := 32, reserved := 0, devId := c.devId, body := body } := by
  have hbytes : (BitVec.ofNat 16 c.batchK).toNat * (512 : BitVec 16).toNat = body.length := by
    rw [BitVec.toNat_ofNat, Nat.mod_eq_of_lt (by omega), hbody, Nat.mul_comm]
    rfl
  rw [decodeFrame, encodeFrame_drop_header, encodeFrame_blockCount, encodeFrame_blockSize, hbytes, List.take_length,
    encodeFrame_layout]
  simp [byteAt_cons_zero, byteAt_cons_succ, byteAt_le16_append, byteAt_le32_append, rdLe16_cons_succ, rdLe16_le16_append,
    rdLe16_le32_append, rdLe16_le16, rdLe32_cons_succ, rdLe32_le16_append, rdLe32_le32_append, rdLe32_le32]

theorem frameSample_encodeFrame (c : Params) (sf ts : Word) (body : Bytes) (i j : Nat) :
    frameSample (encodeFrame c sf ts body) i j = decodeSample (rdLe32 body (512 * i + 4 * j)) := by
  rw [frameSample, encodeFrame_blockSize, Nat.add_assoc, rdLe32_encodeFrame]
  rfl

/-- Settles O22: every header field is read where it was written, and `BATCH_K` fits the block count, so the body is not cut. -/
theorem frameDecodesToWhatItWasBuiltFrom : Obligations.FrameDecodesToWhatItWasBuiltFrom := by
  intro c sf ts body hlegal hbody
  obtain ⟨_, _, ⟨_, hk⟩, _⟩ := hlegal
  exact ⟨decodeFrame_encodeFrame sf ts hk hbody, fun i _ j _ => frameSample_encodeFrame c sf ts body i j⟩

end Sys2Proof.Machine
end

