-- ==== Sys2Proof/Proofs/CaptureRing.lean ====
section
/-! PROOFS. The Capture Ring (spec/40_capture_ring.md): the three operations (R121 to R123), the ring as the list of its unread
blocks (R126), the wrap property (R127), and that no slot is read before it is written (R125). -/

namespace Sys2Proof.Machine

/-! ### The three operations for the agents that own them (R121, R122, R123) -/

theorem exec_ringPush_block {s : State} {b : Block} (hc : s.caller = .P) (hf : s.fault = false) (hb : b.length = 512) :
    exec (.ringPush b) s = .next (answerWith (.completed []) (pushBlock b s)) :=
  (ifAdmitted_pos hc hf).trans (if_pos hb)

theorem exec_ringPush_misshapen {s : State} {b : Block} (hc : s.caller = .P) (hf : s.fault = false) (hb : b.length ≠ 512) :
    exec (.ringPush b) s = .next (answerWith (.faultRaised 4) (raiseFault 4 s)) :=
  (ifAdmitted_pos hc hf).trans (if_neg hb)

theorem exec_ringTryPop_ok {s u : State} {out : Option Block} (hc : s.caller = .T) (hf : s.fault = false)
    (hT : takeFromRing s = .ok (out, u)) :
    exec .ringTryPop s = .next (answerWith (.completed (blockResponse out)) u) := by
  refine (ifAdmitted_pos hc hf).trans ?_
  rw [hT]
  rfl

theorem takeFromRing_empty {s : State} (h : s.rd = s.wr) : takeFromRing s = .ok (none, s) := by
  rcases takeFromRing_cases s with ⟨_, hT⟩ | ⟨hne, _⟩
  · exact hT
  · exact absurd h hne

/-- The level fits in the 32 bits of the response, whatever `RING_N` is. -/
theorem exec_ringLevel {s : State} (hc : s.caller = .H) :
    exec .ringLevel s = .next (answerWith (.completed (le32 (BitVec.ofNat 32 (ringLevel s)))) s) := by
  have hlt : ringLevel s < 2 ^ 32 := (Nat.min_le_left _ _).trans_lt (ringLag s).isLt
  refine (ifOwner_pos hc).trans ?_
  rw [diagCount, if_pos hlt]
  rfl

/-- Settles O1: the guard refuses, the shape check faults, and a stored block is read back at its own slot only. -/
theorem ringPushStoresOrFaults : Obligations.RingPushStoresOrFaults := fun s b =>
  ⟨fun h => ifAdmitted_neg h, exec_ringPush_misshapen, fun hc hf hb =>
    ⟨s.slots.write (slotIndex s s.wr) b, exec_ringPush_block hc hf hb, Memory.read_write s.slots (slotIndex s s.wr) b⟩⟩

/-- Settles O2: the guard refuses, an empty ring answers 0, and else the index and the count that `takeFromRing` uses are those of
the statement, behind or not. -/
theorem ringTryPopTakesOldestRetained : Obligations.RingTryPopTakesOldestRetained := by
  intro s
  refine ⟨fun h => ifAdmitted_neg h, fun hc hf he => exec_ringTryPop_ok hc hf (takeFromRing_empty he),
    fun hc hf hne oldest lost hbehind hwithin b hb => ?_⟩
  rcases takeFromRing_cases s with ⟨he, _⟩ | ⟨_, oldest', lost', hlag, htake⟩
  · exact absurd he hne
  · have hsame : oldest = oldest' ∧ lost = lost' := by
      rcases hlag with ⟨hover, rfl, rfl⟩ | ⟨hnot, rfl, rfl⟩
      · exact hbehind hover
      · exact hwithin hnot
    obtain ⟨rfl, rfl⟩ := hsame
    rcases htake with ⟨hnone, _⟩ | ⟨c, hread, hT⟩
    · cases hnone.symm.trans hb
    · cases hread.symm.trans hb
      exact exec_ringTryPop_ok hc hf hT

/-- Settles O3: RING.LEVEL checks its caller only. -/
theorem ringLevelAnswersRetainedCount : Obligations.RingLevelAnswersRetainedCount :=
  fun _ => ⟨fun h => ⟨.notOwner, ifOwner_neg h⟩, exec_ringLevel⟩

/-! ### The unread blocks as a run of slots (R24) -/

/-- What `n` consecutive ring indices from `start` on address. -/
def slotsFrom (s : State) (start : Word) (n : Nat) : List (Option Block) :=
  (List.range n).map fun i => s.slots.read (slotIndex s (start + BitVec.ofNat 32 i))

/-- The index of the oldest block that is still retained (R24). -/
def oldestIndex (s : State) : Word := s.wr - BitVec.ofNat 32 (ringLevel s)

theorem unread_eq_slotsFrom (s : State) : unread s = slotsFrom s (oldestIndex s) (ringLevel s) := rfl

theorem unread_of_ringLevel {s : State} {n : Nat} (h : ringLevel s = n) :
    unread s = slotsFrom s (s.wr - BitVec.ofNat 32 n) n := h ▸ rfl

@[simp] theorem length_unread (s : State) : (unread s).length = ringLevel s := by simp [unread]

theorem legal_ringN_le {c : Params} (hl : c.legal) : c.ringN ≤ 2 ^ 31 := by
  obtain ⟨⟨e, hn⟩, _⟩ := hl
  exact hn ▸ Nat.pow_le_pow_right (by decide) (Nat.le_of_lt_succ e.isLt)

theorem ringLevel_le (s : State) : ringLevel s ≤ s.cfg.ringN := Nat.min_le_right _ _

theorem slotsFrom_succ (s : State) (start : Word) (n : Nat) :
    slotsFrom s start (n + 1) = s.slots.read (slotIndex s start) :: slotsFrom s (start + 1) n := by
  rw [slotsFrom, List.range_succ_eq_map, List.map_cons, List.map_map]
  refine congrArg₂ List.cons (by simp) (List.map_congr_left fun i _ => ?_)
  have hidx : start + BitVec.ofNat 32 (i + 1) = start + 1 + BitVec.ofNat 32 i := by bv_omega
  rw [← hidx, Function.comp_apply]

theorem slotsFrom_concat (s : State) (start : Word) (n : Nat) :
    slotsFrom s start (n + 1) = slotsFrom s start n ++ [s.slots.read (slotIndex s (start + BitVec.ofNat 32 n))] := by
  simp [slotsFrom, List.range_succ]

theorem drop_slotsFrom (s : State) (start : Word) (n k : Nat) :
    (slotsFrom s start n).drop k = slotsFrom s (start + BitVec.ofNat 32 k) (n - k) := by
  induction k generalizing start n with
  | zero => simp
  | succ k ih =>
    cases n with
    | zero => simp [slotsFrom]
    | succ n =>
      have hidx : start + 1 + BitVec.ofNat 32 k = start + BitVec.ofNat 32 (k + 1) := by bv_omega
      rw [slotsFrom_succ, List.drop_succ_cons, ih, hidx, Nat.add_sub_add_right]

/-- Addressing is continuous across the 32-bit wrap because `RING_N` divides 2^32 (R24), so indices less than `RING_N` apart have
slots of their own. -/
theorem slotIndex_ne_of_lt {s : State} (hl : s.cfg.legal) {i d : Word} (h0 : d ≠ 0) (hd : d.toNat < s.cfg.ringN) :
    slotIndex s i ≠ slotIndex s (i + d) := by
  obtain ⟨⟨e, hn⟩, _⟩ := hl
  have hdvd : s.cfg.ringN ∣ 2 ^ 32 := hn ▸ Nat.pow_dvd_pow 2 e.isLt.le
  intro heq
  simp only [slotIndex, BitVec.toNat_add, Nat.mod_mod_of_dvd _ hdvd] at heq
  have hmod : 0 ≡ d.toNat [MOD s.cfg.ringN] := Nat.ModEq.add_left_cancel' i.toNat heq
  have hzero : d.toNat = 0 := Nat.eq_zero_of_dvd_of_lt ((Nat.modEq_zero_iff_dvd).1 hmod.symm) hd
  exact h0 (BitVec.eq_of_toNat_eq hzero)

/-! ### A push (R126) -/

/-- A push writes none of the slots of the last `RING_N − 1` blocks. -/
theorem slotsFrom_pushBlock (b : Block) {s : State} (hl : s.cfg.legal) {n : Nat} (hn : n < s.cfg.ringN) :
    slotsFrom (pushBlock b s) (s.wr - BitVec.ofNat 32 n) n = slotsFrom s (s.wr - BitVec.ofNat 32 n) n := by
  refine List.map_congr_left fun i hi => ?_
  have hi := List.mem_range.1 hi
  have hN := legal_ringN_le hl
  have hdist : (BitVec.ofNat 32 (n - i)).toNat = n - i := by
    rw [BitVec.toNat_ofNat]
    omega
  have hwr : s.wr - BitVec.ofNat 32 n + BitVec.ofNat 32 i + BitVec.ofNat 32 (n - i) = s.wr := by bv_omega
  have hne := slotIndex_ne_of_lt hl (i := s.wr - BitVec.ofNat 32 n + BitVec.ofNat 32 i) (d := BitVec.ofNat 32 (n - i))
    (by bv_omega) (by omega)
  rw [hwr] at hne
  rw [pushBlock_slots, Memory.read_write]
  exact if_neg hne

/-- The last `k` unread blocks end at the write index. -/
theorem rtake_unread (s : State) (k : Nat) :
    (unread s).rtake k = slotsFrom s (s.wr - BitVec.ofNat 32 (min (ringLevel s) k)) (min (ringLevel s) k) := by
  have hlen : ringLevel s - (ringLevel s - k) = min (ringLevel s) k := by omega
  have hidx : oldestIndex s + BitVec.ofNat 32 (ringLevel s - k) = s.wr - BitVec.ofNat 32 (min (ringLevel s) k) := by
    rw [← hlen, oldestIndex]
    bv_omega
  rw [List.rtake, length_unread, unread_eq_slotsFrom, drop_slotsFrom, hlen, hidx]

/-- A push puts the block at the end of the unread blocks, of which the ring keeps the last `RING_N` (R126, R128). -/
theorem unread_pushBlock (b : Block) {s : State} (hl : s.cfg.legal) (hlag : (s.wr - s.rd).toNat + 1 < 2 ^ 32) :
    unread (pushBlock b s) = (unread s ++ [some b]).rtake s.cfg.ringN := by
  obtain ⟨m, hm⟩ : ∃ m, s.cfg.ringN = m + 1 := Nat.exists_eq_succ_of_ne_zero (legal_ringN_pos hl).ne'
  have hlevel : ringLevel (pushBlock b s) = min (ringLevel s) m + 1 := by
    have hlag' : (s.wr + 1 - s.rd).toNat = (s.wr - s.rd).toNat + 1 := by bv_omega
    simp only [ringLevel, ringLag, pushBlock_wr, pushBlock_rd, pushBlock_cfg, hlag', hm]
    omega
  have hold : oldestIndex (pushBlock b s) = s.wr - BitVec.ofNat 32 (min (ringLevel s) m) := by
    rw [oldestIndex, hlevel, pushBlock_wr]
    bv_omega
  have hlast : oldestIndex (pushBlock b s) + BitVec.ofNat 32 (min (ringLevel s) m) = s.wr := by
    rw [hold]
    bv_omega
  have hslot : (pushBlock b s).slots.read (slotIndex (pushBlock b s) s.wr) = some b := by
    rw [pushBlock_slots, Memory.read_write]
    exact if_pos rfl
  calc unread (pushBlock b s)
      = slotsFrom (pushBlock b s) (oldestIndex (pushBlock b s)) (min (ringLevel s) m) ++ [some b] := by
        rw [unread_eq_slotsFrom, hlevel, slotsFrom_concat, hlast, hslot]
    _ = (unread s).rtake m ++ [some b] := by
        rw [hold, slotsFrom_pushBlock b hl (by omega), rtake_unread]
    _ = (unread s ++ [some b]).rtake s.cfg.ringN := by rw [hm, List.rtake_concat_succ]

theorem rtake_concat_of_length_le {α : Type} {l : List α} {n : Nat} (x : α) (hn : 0 < n) (h : l.length ≤ n) :
    (l ++ [x]).rtake n = if l.length < n then l ++ [x] else l.tail ++ [x] := by
  simp only [List.rtake, List.length_append, List.length_singleton]
  split_ifs with hlt
  · rw [Nat.sub_eq_zero_of_le hlt, List.drop_zero]
  · cases l with
    | nil => exact absurd hn hlt
    | cons y ys =>
      have hone : ys.length + 1 + 1 - n = 1 := by simp only [List.length_cons] at h hlt; omega
      simp [hone]

/-- Keeping the last `n` as one goes keeps the last `n` of all. -/
theorem rtake_rtake_append {α : Type} (l m : List α) (n : Nat) : (l.rtake n ++ m).rtake n = (l ++ m).rtake n := by
  simp only [List.rtake_eq_reverse_take_reverse, List.reverse_append, List.reverse_reverse, List.take_append, List.take_take,
    Nat.min_eq_left (Nat.sub_le _ _)]

/-! ### A pop (R126) -/

theorem unread_eq_nil_iff {s : State} (hn : 0 < s.cfg.ringN) : unread s = [] ↔ s.rd = s.wr := by
  have hlag : (s.wr - s.rd).toNat = 0 ↔ s.rd = s.wr := by constructor <;> intro h <;> bv_omega
  rw [← hlag, ← List.length_eq_zero_iff, length_unread]
  simp only [ringLevel, ringLag]
  omega

/-- After the catch-up, if any, the slot read is the one of the oldest retained block. -/
theorem takeFromRing_oldest {s : State} {b : Block} (hne : s.rd ≠ s.wr)
    (hread : s.slots.read (slotIndex s (oldestIndex s)) = some b) :
    ∃ lost, takeFromRing s = .ok (some b, { s with rd := oldestIndex s + 1, overruns := s.overruns + lost }) := by
  rcases takeFromRing_cases s with ⟨he, _⟩ | ⟨_, oldest, lost, hlag, htake⟩
  · exact absurd he hne
  · have hold : oldest = oldestIndex s := by
      rcases hlag with ⟨hover, rfl, _⟩ | ⟨hwithin, rfl, _⟩
      · have hlevel : ringLevel s = s.cfg.ringN := Nat.min_eq_right hover.le
        rw [oldestIndex, hlevel, ringNWord]
      · have hlevel : ringLevel s = (s.wr - s.rd).toNat := Nat.min_eq_left (Nat.not_lt.1 hwithin)
        rw [oldestIndex, hlevel]
        bv_omega
    subst hold
    rcases htake with ⟨hnone, _⟩ | ⟨c, hc, hT⟩
    · cases hnone.symm.trans hread
    · cases hc.symm.trans hread
      exact ⟨lost, hT⟩

/-- The first unread block is what the oldest index's slot holds, and the rest stands behind it. -/
theorem unread_cons {s : State} {x : Option Block} {rest : List (Option Block)} (hu : unread s = x :: rest) :
    ringLevel s = rest.length + 1 ∧ s.slots.read (slotIndex s (oldestIndex s)) = x ∧
      slotsFrom s (oldestIndex s + 1) rest.length = rest := by
  have hm : ringLevel s = rest.length + 1 := by rw [← length_unread, hu, List.length_cons]
  rw [unread_eq_slotsFrom, hm, slotsFrom_succ, List.cons.injEq] at hu
  exact ⟨hm, hu⟩

/-- With unread blocks, a pop hands out the first of them, if its slot holds it, and leaves the rest. -/
theorem takeFromRing_of_unread_cons {s : State} {b : Block} {rest : List (Option Block)} (hl : s.cfg.legal)
    (hu : unread s = some b :: rest) : ∃ u, takeFromRing s = .ok (some b, u) ∧ unread u = rest := by
  obtain ⟨hm, hread, hrest⟩ := unread_cons hu
  have hne : s.rd ≠ s.wr := by
    rw [Ne, ← unread_eq_nil_iff (legal_ringN_pos hl), hu]
    exact List.cons_ne_nil _ _
  obtain ⟨lost, hT⟩ := takeFromRing_oldest hne hread
  refine ⟨_, hT, ?_⟩
  have hle := ringLevel_le s
  have hN := legal_ringN_le hl
  have hlag : (s.wr - (oldestIndex s + 1)).toNat = rest.length := by
    rw [oldestIndex, hm]
    bv_omega
  have hlevel : ringLevel { s with rd := oldestIndex s + 1, overruns := s.overruns + lost } = rest.length := by
    simp only [ringLevel, ringLag, hlag]
    omega
  have hold : s.wr - BitVec.ofNat 32 rest.length = oldestIndex s + 1 := by
    rw [oldestIndex, hm]
    bv_omega
  rw [unread_of_ringLevel hlevel, hold]
  exact hrest

/-- The oldest retained block is really there (R125). -/
theorem unread_head_isSome {s : State} {x : Option Block} {rest : List (Option Block)} (h : RingInv s)
    (hu : unread s = x :: rest) : ∃ b, x = some b := by
  obtain ⟨hm, rfl, _⟩ := unread_cons hu
  have hidx : oldestIndex s = s.wr - 1 - BitVec.ofNat 32 rest.length := by
    rw [oldestIndex, hm]
    bv_omega
  rw [hidx]
  exact Option.isSome_iff_exists.1 (h.retained rest.length (by omega))

/-- Settles O4: a push keeps the last `RING_N` of the unread blocks and the new one, and a pop hands out the first of them. -/
theorem ringRefinesListOfUnreadBlocks : Obligations.RingRefinesListOfUnreadBlocks := by
  intro s hs
  have hn := legal_ringN_pos hs.params
  refine ⟨fun b hc hf hb hlag => ?_, fun hc hf hu => ?_, fun x rest hc hf hu => ?_, fun hc => ?_⟩
  · refine ⟨_, exec_ringPush_block hc hf hb, (unread_pushBlock b hs.params hlag).trans ?_⟩
    exact rtake_concat_of_length_le (some b) hn (length_unread s ▸ ringLevel_le s)
  · exact exec_ringTryPop_ok hc hf (takeFromRing_empty ((unread_eq_nil_iff hn).1 hu))
  · obtain ⟨b, rfl⟩ := unread_head_isSome hs.ring hu
    obtain ⟨u, hT, hrest⟩ := takeFromRing_of_unread_cons hs.params hu
    exact ⟨b, _, rfl, exec_ringTryPop_ok hc hf hT, rfl, hrest⟩
  · rw [length_unread]
    exact exec_ringLevel hc

/-! ### Pushes and then pops (R127) -/

theorem answers_succ {s t : State} (k : Nat) (h : step s = .next t) : answers (k + 1) s = t.answer :: answers k t := by
  rw [answers, h]

theorem step_ringPush {s : State} {b : Block} {rest : List Request} (hf : s.fault = false) (hb : b.length = 512)
    (hq : s.requests = ⟨.P, 0x01 :: b⟩ :: rest) :
    step s = .next (answerWith (.completed []) (pushBlock b { s with requests := rest, caller := .P })) :=
  (step_decoded hq (decode_ringPush s.cfg b)).trans (exec_ringPush_block rfl hf hb)

/-- Pushes all complete, and the ring keeps the last `RING_N` of the unread blocks and the blocks pushed. -/
theorem answers_ringPushes {bs : List Block} {rest : List Request} (k : Nat) {s : State} (hl : s.cfg.legal)
    (hf : s.fault = false) (hb : ∀ b ∈ bs, b.length = 512) (hlag : (s.wr - s.rd).toNat + bs.length < 2 ^ 32)
    (hq : s.requests = bs.map (fun b => ⟨.P, 0x01 :: b⟩) ++ rest) :
    ∃ t, t.cfg = s.cfg ∧ t.fault = false ∧ t.requests = rest ∧
      unread t = (unread s ++ bs.map some).rtake s.cfg.ringN ∧
      answers (bs.length + k) s = List.replicate bs.length (.completed []) ++ answers k t := by
  induction bs generalizing s with
  | nil =>
    have hle := ringLevel_le s
    refine ⟨s, rfl, hf, hq, ?_, by simp⟩
    simp [List.rtake, Nat.sub_eq_zero_of_le hle]
  | cons b bs ih =>
    rw [List.length_cons] at hlag
    have hstep := step_ringPush hf (hb b List.mem_cons_self) hq
    have hpush := unread_pushBlock b hl (by omega)
    have hlag' : (s.wr + 1 - s.rd).toNat + bs.length < 2 ^ 32 := by bv_omega
    obtain ⟨t, hcfg, hft, hqt, hu, hans⟩ := ih (s := answerWith (.completed [])
      (pushBlock b { s with requests := bs.map (fun b => ⟨.P, 0x01 :: b⟩) ++ rest, caller := .P }))
      hl hf (fun c hc => hb c (List.mem_cons_of_mem b hc)) hlag' rfl
    refine ⟨t, hcfg, hft, hqt, ?_, ?_⟩
    · have hu' : unread t = (unread (pushBlock b s) ++ bs.map some).rtake s.cfg.ringN := hu
      rw [hu', hpush, rtake_rtake_append, List.map_cons, List.append_assoc, List.singleton_append]
    · rw [List.length_cons, Nat.add_right_comm, List.replicate_succ]
      exact (answers_succ _ hstep).trans (congrArg _ hans)

theorem step_ringTryPop {s u : State} {out : Option Block} {rest : List Request} (hf : s.fault = false)
    (hq : s.requests = ⟨.T, [0x02]⟩ :: rest)
    (hT : takeFromRing { s with requests := rest, caller := .T } = .ok (out, u)) :
    step s = .next (answerWith (.completed (blockResponse out)) u) :=
  (step_decoded hq (decode_ringTryPop s.cfg [])).trans (exec_ringTryPop_ok rfl hf hT)

/-- Pops hand out the unread blocks in order, and the pop after the last of them finds nothing. -/
theorem answers_ringTryPops {bs : List Block} {s : State} (hl : s.cfg.legal) (hf : s.fault = false)
    (hu : unread s = bs.map some) (hq : s.requests = List.replicate (bs.length + 1) ⟨.T, [0x02]⟩) :
    answers (bs.length + 1) s = bs.map (fun b => .completed (1 :: b)) ++ [.completed [0]] := by
  induction bs generalizing s with
  | nil =>
    have he : s.rd = s.wr := (unread_eq_nil_iff (legal_ringN_pos hl)).1 hu
    exact answers_succ 0 (step_ringTryPop hf hq (takeFromRing_empty he))
  | cons b bs ih =>
    obtain ⟨u, hT, hrest⟩ := takeFromRing_of_unread_cons (b := b) (rest := bs.map some)
      (s := { s with requests := List.replicate (bs.length + 1) ⟨.T, [0x02]⟩, caller := .T }) hl hu
    have hframe := takeFromRing_frame hT
    have hpops := ih (s := answerWith (.completed (1 :: b)) u) (congrArg State.cfg hframe ▸ hl)
      ((congrArg State.fault hframe).trans hf) hrest (congrArg State.requests hframe)
    exact (answers_succ _ (step_ringTryPop hf hq hT)).trans (congrArg _ hpops)

/-- Settles O5: after the N+1 pushes the ring keeps the last N blocks, which the pops hand out in order. -/
theorem ringWrapLosesExactlyTheOldest : Obligations.RingWrapLosesExactlyTheOldest := by
  intro s oldest bs hl hf he hlen hb hq
  have hempty := (unread_eq_nil_iff (legal_ringN_pos hl)).2 he
  have hlag : (s.wr - s.rd).toNat + (oldest :: bs).length < 2 ^ 32 := by
    have hN := legal_ringN_le hl
    simp only [he, BitVec.sub_self, BitVec.toNat_zero, List.length_cons, hlen]
    omega
  obtain ⟨t, hcfg, hft, hqt, hu, hans⟩ := answers_ringPushes (s.cfg.ringN + 1) hl hf hb hlag hq
  have hkept : unread t = bs.map some := by
    rw [hu, hempty]
    simp [List.rtake, hlen]
  rw [← hlen] at hans hqt ⊢
  have hpops := answers_ringTryPops (hcfg ▸ hl) hft hkept hqt
  rw [two_mul, List.append_assoc, ← hpops]
  exact hans

/-! ### Every step answers a next state (R125, R29, R40) -/

theorem takeFromRing_total {s : State} (hs : s.Inv) : ∃ out u, takeFromRing s = .ok (out, u) := by
  cases hu : unread s with
  | nil => exact ⟨_, _, takeFromRing_empty ((unread_eq_nil_iff (legal_ringN_pos hs.params)).1 hu)⟩
  | cons x rest =>
    obtain ⟨b, rfl⟩ := unread_head_isSome hs.ring hu
    obtain ⟨u, hT, _⟩ := takeFromRing_of_unread_cons hs.params hu
    exact ⟨_, _, hT⟩

theorem readRun_total {m : Memory} {i n : Nat} (h : ∀ k < n, (m.read (i + k)).isSome = true) :
    ∃ bs, readRun m i n = some bs := by
  induction n generalizing i with
  | zero => exact ⟨[], rfl⟩
  | succ n ih =>
    obtain ⟨b, hb⟩ := Option.isSome_iff_exists.1 (h 0 (Nat.succ_pos n))
    obtain ⟨bs, hbs⟩ := ih (i := i + 1) fun k hk => by
      rw [Nat.add_right_comm]
      exact h (k + 1) (Nat.succ_lt_succ hk)
    rw [Nat.add_zero] at hb
    exact ⟨b :: bs, by rw [readRun, hb, hbs]⟩

/-- With seven entries gathered and the eighth written, the whole group is there (R29). -/
theorem gatheredBlocks_total {s : State} (h : GatherInv s) (h7 : s.g = 7) (b : Block) :
    ∃ bs, gatheredBlocks (s.gbuf.write 7 b) = some bs := by
  refine readRun_total fun k (hk : k < 8) => ?_
  rw [Nat.zero_add, Memory.read_write]
  split_ifs with hlast
  · rfl
  · exact h.gathered k (by omega)

theorem gatherBlock_total {s : State} (h : GatherInv s) (b : Block) : ∃ t, gatherBlock b s = .next t := by
  have hcount := h.count
  rcases gatherBlock_cases b s with ⟨h8, _⟩ | ⟨_, hg⟩ | ⟨h7, hnone, _⟩ | ⟨_, bs, _, hg⟩
  · omega
  · exact ⟨_, hg⟩
  · obtain ⟨bs, hbs⟩ := gatheredBlocks_total h h7 b
    cases hnone.symm.trans hbs
  · exact ⟨_, hg⟩

theorem ifOwner_total (o : Agent) (s : State) {r : Result} (h : ∃ t, r = .next t) : ∃ t, ifOwner o s r = .next t := by
  rcases ifOwner_cases o s r with ⟨why, hw⟩ | ⟨_, hr⟩
  · exact ⟨_, hw⟩
  · rwa [hr]

theorem ifAdmitted_total (o : Agent) (s : State) {r : Result} (h : ∃ t, r = .next t) : ∃ t, ifAdmitted o s r = .next t := by
  rcases ifAdmitted_cases o s r with ⟨why, hw⟩ | ⟨_, _, hr⟩
  · exact ⟨_, hw⟩
  · rwa [hr]

theorem ifRunning_total (run : Bool) (s : State) {r : Result} (h : ∃ t, r = .next t) : ∃ t, ifRunning run s r = .next t := by
  cases run with
  | false => exact ⟨_, rfl⟩
  | true => exact h

theorem presentBlock_total (b : Block) (s : State) : ∃ t, presentBlock b s = .next t := by
  rcases presentBlock_cases b s with ⟨_, hp⟩ | ⟨_, hp⟩ <;> exact ⟨_, hp⟩

/-- Only the three operations that read storage can stop, and the invariant has what they read. -/
theorem exec_total (i : Instr) {s : State} (hs : s.Inv) : ∃ t, exec i s = .next t := by
  cases i with
  | ringPush b => exact ifAdmitted_total _ _ (presentBlock_total b s)
  | ringTryPop =>
    obtain ⟨out, u, hT⟩ := takeFromRing_total hs
    refine ifAdmitted_total _ _ ?_
    rw [hT]
    exact ⟨_, rfl⟩
  | xferTick =>
    obtain ⟨out, u, hT⟩ := takeFromRing_total hs
    refine ifAdmitted_total _ _ (ifRunning_total _ _ ?_)
    rw [hT]
    cases out <;> exact ⟨_, rfl⟩
  | asmAppend d now =>
    refine ifAdmitted_total _ _ ?_
    split_ifs <;> exact ⟨_, rfl⟩
  | bstageStep =>
    refine ifAdmitted_total _ _ (ifRunning_total _ _ ?_)
    rcases queueTake_cases s with ⟨_, hq⟩ | ⟨b, rest, _, hq⟩ <;> rw [hq]
    · exact ⟨_, rfl⟩
    · exact gatherBlock_total hs.gather.congr b
  | capDeliver opt =>
    refine ifAdmitted_total _ _ ?_
    cases opt with
    | none => exact ⟨_, rfl⟩
    | some b => exact presentBlock_total b s
  | bqTryPush | bqPop | bqDiscard | decimate | frameEncode | sinkPublish => exact ifAdmitted_total _ _ ⟨_, rfl⟩
  | ringLevel | xferStop | bstageStop | diagRead | reset => exact ifOwner_total _ _ ⟨_, rfl⟩

/-- Settles O49: an idle step and a refused message answer a next state, and so does every operation from a state with the
invariant. -/
theorem stepNeverReadsUnwrittenStorage : Obligations.StepNeverReadsUnwrittenStorage := by
  intro s hs
  rcases step_cases s with ⟨_, hstep⟩ | ⟨r, rest, _, ⟨e, _, hstep⟩ | ⟨i, _, hstep⟩⟩ <;> rw [hstep]
  · exact ⟨s, rfl⟩
  · exact ⟨_, rfl⟩
  · exact exec_total i (takenRequest_inv rest r.agent hs)

end Sys2Proof.Machine
end

