-- ==== Sys2Proof/Proofs/BatchQueue.lean ====
section
/-! PROOFS. The Batch Queue (spec/41_batch_queue.md): the three operations (R141, R142, R146) and the drop accounting property
(R147). -/

namespace Sys2Proof.Machine

/-! ### The queue's two ends (R141, R142) -/

theorem queuePush_full (b : Block) {s : State} (h : s.bq.length = s.cfg.queueDepth) : queuePush b s = (false, s) := by
  rcases queuePush_cases b s with ⟨_, hP⟩ | ⟨hroom, _⟩
  · exact hP
  · exact absurd h hroom

theorem queuePush_room (b : Block) {s : State} (h : s.bq.length ≠ s.cfg.queueDepth) :
    queuePush b s = (true, { s with bq := s.bq ++ [b] }) := by
  rcases queuePush_cases b s with ⟨hfull, _⟩ | ⟨_, hP⟩
  · exact absurd hfull h
  · exact hP

theorem queueTake_nil {s : State} (h : s.bq = []) : queueTake s = (none, s) := by
  rcases queueTake_cases s with ⟨_, hT⟩ | ⟨b, rest, hcons, _⟩
  · exact hT
  · cases h.symm.trans hcons

theorem queueTake_cons {s : State} {b : Block} {rest : List Block} (h : s.bq = b :: rest) :
    queueTake s = (some b, { s with bq := rest }) := by
  rcases queueTake_cases s with ⟨hnil, _⟩ | ⟨c, rest', hcons, hT⟩
  · cases h.symm.trans hnil
  · cases h.symm.trans hcons
    exact hT

/-! ### The three operations for the agents that own them (R141, R142, R146) -/

theorem exec_bqTryPush_ok {s u : State} {b : Block} {stored : Bool} (hc : s.caller = .T) (hf : s.fault = false)
    (hP : queuePush b s = (stored, u)) :
    exec (.bqTryPush b) s = .next (answerWith (.completed [if stored then 1 else 0]) u) := by
  refine (ifAdmitted_pos hc hf).trans ?_
  rw [hP]
  rfl

theorem exec_bqPop_ok {s u : State} {out : Option Block} (hc : s.caller = .B) (hf : s.fault = false)
    (hT : queueTake s = (out, u)) : exec .bqPop s = .next (answerWith (.completed (blockResponse out)) u) := by
  refine (ifAdmitted_pos hc hf).trans ?_
  rw [hT]
  rfl

/-- Settles O6: the guard refuses, and the push is the queue's own, full or not. -/
theorem bqTryPushAppendsUnlessFull : Obligations.BqTryPushAppendsUnlessFull := fun _ b =>
  ⟨fun h => ifAdmitted_neg h, fun hc hf hfull => exec_bqTryPush_ok hc hf (queuePush_full b hfull),
    fun hc hf hroom => exec_bqTryPush_ok hc hf (queuePush_room b hroom)⟩

/-- Settles O7: the guard refuses, and the pop is the queue's own, empty or not. -/
theorem bqPopTakesTheHead : Obligations.BqPopTakesTheHead := fun _ =>
  ⟨fun h => ifAdmitted_neg h, fun hc hf hnil => exec_bqPop_ok hc hf (queueTake_nil hnil),
    fun _ _ hc hf hcons => exec_bqPop_ok hc hf (queueTake_cons hcons)⟩

/-- Settles O8: the guard refuses, and the discard writes the queue only. -/
theorem bqDiscardEmptiesUncounted : Obligations.BqDiscardEmptiesUncounted := fun _ =>
  ⟨fun h => ifAdmitted_neg h, fun hc hf => ifAdmitted_pos hc hf⟩

/-! ### Pushes and then pops (R147) -/

theorem step_bqTryPush {s u : State} {b : Block} {stored : Bool} {rest : List Request} (hf : s.fault = false)
    (hb : b.length = 512) (hq : s.requests = ⟨.T, 0x11 :: b⟩ :: rest)
    (hP : queuePush b { s with requests := rest, caller := .T } = (stored, u)) :
    step s = .next (answerWith (.completed [if stored then 1 else 0]) u) := by
  have hd : decode s.cfg (0x11 :: b) = .ok (.bqTryPush b) := (decode_bqTryPush s.cfg b).trans (if_pos hb)
  exact (step_decoded hq hd).trans (exec_bqTryPush_ok rfl hf hP)

/-- With room for `n` blocks, the first `n` pushes queue their blocks and all later ones fail. -/
theorem answers_bqTryPushes {bs : List Block} {rest : List Request} (k : Nat) {s : State} {n : Nat} (hf : s.fault = false)
    (hn : s.bq.length + n = s.cfg.queueDepth) (hb : ∀ b ∈ bs, b.length = 512)
    (hq : s.requests = bs.map (fun b => ⟨.T, 0x11 :: b⟩) ++ rest) :
    ∃ t, t.fault = false ∧ t.requests = rest ∧ t.bq = s.bq ++ bs.take n ∧
      answers (bs.length + k) s =
        List.replicate (min bs.length n) (.completed [1]) ++ List.replicate (bs.length - n) (.completed [0])
          ++ answers k t := by
  induction bs generalizing s n with
  | nil => exact ⟨s, hf, hq, by simp, by simp⟩
  | cons b bs ih =>
    have hb' : ∀ c ∈ bs, c.length = 512 := fun c hc => hb c (List.mem_cons_of_mem b hc)
    rw [List.length_cons, Nat.add_right_comm]
    cases n with
    | zero =>
      have hstep := step_bqTryPush hf (hb b List.mem_cons_self) hq (queuePush_full b hn)
      obtain ⟨t, hft, hqt, hbq, hans⟩ := ih (s := answerWith (.completed [0])
        { s with requests := bs.map (fun b => ⟨.T, 0x11 :: b⟩) ++ rest, caller := .T }) hf hn hb' rfl
      refine ⟨t, hft, hqt, hbq, (answers_succ _ hstep).trans ?_⟩
      simp only [Nat.min_zero, Nat.sub_zero, List.replicate_zero, List.nil_append] at hans ⊢
      exact congrArg _ hans
    | succ n =>
      have hroom : s.bq.length ≠ s.cfg.queueDepth := by omega
      have hstep := step_bqTryPush hf (hb b List.mem_cons_self) hq (queuePush_room b hroom)
      have hn' : (s.bq ++ [b]).length + n = s.cfg.queueDepth := by
        rw [List.length_append, List.length_singleton]
        omega
      obtain ⟨t, hft, hqt, hbq, hans⟩ := ih (s := answerWith (.completed [1])
        { s with requests := bs.map (fun b => ⟨.T, 0x11 :: b⟩) ++ rest, caller := .T, bq := s.bq ++ [b] }) hf hn' hb' rfl
      refine ⟨t, hft, hqt, by simpa using hbq, (answers_succ _ hstep).trans ?_⟩
      rw [Nat.succ_min_succ, Nat.add_sub_add_right, List.replicate_succ]
      exact congrArg _ hans

theorem step_bqPop {s u : State} {out : Option Block} {rest : List Request} (hf : s.fault = false)
    (hq : s.requests = ⟨.B, [0x12]⟩ :: rest) (hT : queueTake { s with requests := rest, caller := .B } = (out, u)) :
    step s = .next (answerWith (.completed (blockResponse out)) u) :=
  (step_decoded hq (decode_bqPop s.cfg [])).trans (exec_bqPop_ok rfl hf hT)

/-- Pops hand out the queued blocks in order, and the pop after the last of them times out. -/
theorem answers_bqPops {bs : List Block} {s : State} (hf : s.fault = false) (hbq : s.bq = bs)
    (hq : s.requests = List.replicate (bs.length + 1) ⟨.B, [0x12]⟩) :
    answers (bs.length + 1) s = bs.map (fun b => .completed (1 :: b)) ++ [.completed [0]] := by
  induction bs generalizing s with
  | nil => exact answers_succ 0 (step_bqPop hf hq (queueTake_nil hbq))
  | cons b bs ih =>
    have hpops := ih (s := answerWith (.completed (1 :: b))
      { s with requests := List.replicate (bs.length + 1) ⟨.B, [0x12]⟩, caller := .B, bq := bs }) hf rfl rfl
    exact (answers_succ _ (step_bqPop hf hq (queueTake_cons hbq))).trans (congrArg _ hpops)

/-- Settles O9: an empty queue has room for exactly the blocks of `kept`, which the pops hand out in order. -/
theorem dropAccountingKeepsTheOldest : Obligations.DropAccountingKeepsTheOldest := by
  intro s kept lost hf hempty hlen hb hq
  have hroom : s.bq.length + kept.length = s.cfg.queueDepth := by rw [hempty, List.length_nil, Nat.zero_add, hlen]
  obtain ⟨t, hft, hqt, hbq, hans⟩ := answers_bqTryPushes (s.cfg.queueDepth + 1) hf hroom hb hq
  have hkept : t.bq = kept := by rw [hbq, hempty, List.nil_append, List.take_left]
  rw [← hlen] at hans hqt ⊢
  have hpops := answers_bqPops hft hkept hqt
  rw [List.length_append, Nat.min_eq_right (Nat.le_add_right _ _), Nat.add_sub_cancel_left, hpops] at hans
  rw [hans, List.append_assoc _ (kept.map _)]

end Sys2Proof.Machine
end

