-- ==== Sys2Proof/Proofs/TransferStage.lean ====
section
/-! PROOFS. The Transfer Stage (spec/42_transfer_stage.md): the tick (R156), its accounting (R162), the stop (R160), and that only
RESET starts a stopped stage again (R160, R216, R266). -/

namespace Sys2Proof.Machine

/-! ### The tick for the agent that owns it (R156) -/

theorem exec_xferTick_refused {s : State} (h : s.caller ≠ .T ∨ s.fault = true ∨ s.tRun = false) : Refuses .xferTick s := by
  by_cases hadm : s.caller ≠ .T ∨ s.fault = true
  · exact ifAdmitted_neg hadm
  · rw [not_or, not_not, Bool.not_eq_true] at hadm
    obtain ⟨hc, hf⟩ := hadm
    have hrun : s.tRun = false := by simpa [hc, hf] using h
    exact ⟨.stopped, (ifAdmitted_pos hc hf).trans (ifRunning_neg hrun)⟩

theorem exec_xferTick_empty {s u : State} (hc : s.caller = .T) (hf : s.fault = false) (hrun : s.tRun = true)
    (hT : takeFromRing s = .ok (none, u)) : exec .xferTick s = .next (answerWith (.completed []) u) := by
  refine (ifAdmitted_pos hc hf).trans ((ifRunning_pos hrun).trans ?_)
  rw [hT]
  rfl

theorem exec_xferTick_block {s u : State} {b : Block} (hc : s.caller = .T) (hf : s.fault = false) (hrun : s.tRun = true)
    (hT : takeFromRing s = .ok (some b, u)) : exec .xferTick s = .next (answerWith (.completed []) (forwardBlock b u)) := by
  refine (ifAdmitted_pos hc hf).trans ((ifRunning_pos hrun).trans ?_)
  rw [hT]
  rfl

/-- A pop from a ring that is not empty reads the slot of the oldest retained block, behind or not (R122). -/
theorem takeFromRing_of_read {s : State} {oldest lost : Word} {b : Block} (hne : s.rd ≠ s.wr)
    (hbehind : s.cfg.ringN < (s.wr - s.rd).toNat →
      oldest = s.wr - ringNWord s ∧ lost = if s.cfg.overrunCountEn then s.wr - s.rd - ringNWord s else 0)
    (hwithin : ¬ s.cfg.ringN < (s.wr - s.rd).toNat → oldest = s.rd ∧ lost = 0)
    (hb : s.slots.read (slotIndex s oldest) = some b) :
    takeFromRing s = .ok (some b, { s with rd := oldest + 1, overruns := s.overruns + lost }) := by
  rcases takeFromRing_cases s with ⟨he, _⟩ | ⟨_, oldest', lost', hlag, htake⟩
  · exact absurd he hne
  · obtain ⟨rfl, rfl⟩ : oldest = oldest' ∧ lost = lost' := by
      rcases hlag with ⟨hover, rfl, rfl⟩ | ⟨hnot, rfl, rfl⟩
      · exact hbehind hover
      · exact hwithin hnot
    rcases htake with ⟨hnone, _⟩ | ⟨c, hread, hT⟩
    · cases hnone.symm.trans hb
    · cases hread.symm.trans hb
      exact hT

/-- `forwardBlock_eq` with the four outcomes that depend on the queue and on the event period named (R156). -/
theorem forwardBlock_of_outcome {b : Block} {s : State} {drops : Word} {bq : List Block} {evtOut : List Bytes}
    {evtTrace : List (Word × Word)}
    (hfull : s.bq.length = s.cfg.queueDepth → bq = s.bq ∧ drops = s.drops + 1)
    (hroom : s.bq.length ≠ s.cfg.queueDepth → bq = s.bq ++ [b] ∧ drops = s.drops)
    (hreport : (s.total + 1).toNat % s.cfg.evtPeriod = 0 →
      evtTrace = s.evtTrace ++ [(drops, s.total + 1)] ∧ evtOut = s.evtOut ++ [le32 drops ++ le32 (s.total + 1)])
    (hquiet : (s.total + 1).toNat % s.cfg.evtPeriod ≠ 0 → evtTrace = s.evtTrace ∧ evtOut = s.evtOut) :
    forwardBlock b s =
      { s with bq := bq, drops := drops, total := s.total + 1, evtTrace := evtTrace, evtOut := evtOut } := by
  have hqueue : bq = (if s.bq.length = s.cfg.queueDepth then s.bq else s.bq ++ [b]) ∧
      drops = if s.bq.length = s.cfg.queueDepth then s.drops + 1 else s.drops := by
    split_ifs with hf
    · exact hfull hf
    · exact hroom hf
  have hevents : evtTrace = (if (s.total + 1).toNat % s.cfg.evtPeriod = 0 then s.evtTrace ++ [(drops, s.total + 1)]
        else s.evtTrace) ∧
      evtOut = if (s.total + 1).toNat % s.cfg.evtPeriod = 0 then s.evtOut ++ [le32 drops ++ le32 (s.total + 1)]
        else s.evtOut := by
    split_ifs with hr
    · exact hreport hr
    · exact hquiet hr
  obtain ⟨rfl, rfl⟩ := hqueue
  obtain ⟨rfl, rfl⟩ := hevents
  exact forwardBlock_eq b s

/-- Settles O10: the guards refuse, an empty ring is left alone, and else the tick is RING.TRY_POP's pop and then the forwarding of
its block. -/
theorem xferTickMovesOneBlock : Obligations.XferTickMovesOneBlock := by
  intro s
  refine ⟨exec_xferTick_refused, fun hc hf hrun he => exec_xferTick_empty hc hf hrun (takeFromRing_empty he), ?_⟩
  intro hc hf hrun hne n behind full report oldest lost drops bq evtOut evtTrace b hbehind hwithin hb hfull hroom hreport hquiet
  have hpop := takeFromRing_of_read hne hbehind hwithin hb
  have hforward := forwardBlock_of_outcome (s := { s with rd := oldest + 1, overruns := s.overruns + lost })
    hfull hroom hreport hquiet
  rw [exec_xferTick_block hc hf hrun hpop, hforward]
  rfl

/-! ### The accounting of one tick (R162) -/

/-- A pop takes one block off the lag, and with it the blocks by which the lag exceeds `RING_N` (R122). -/
theorem takeFromRing_lag {s u : State} {b : Block} (hl : s.cfg.legal) (hT : takeFromRing s = .ok (some b, u)) :
    (s.wr - s.rd).toNat = (u.wr - u.rd).toNat + 1 + ((s.wr - s.rd).toNat - s.cfg.ringN) := by
  have hpos := legal_ringN_pos hl
  have hle := legal_ringN_le hl
  rcases takeFromRing_cases s with ⟨_, hc⟩ | ⟨hne, oldest, lost, hlag, ⟨_, hc⟩ | ⟨c, _, hc⟩⟩ <;> rw [hc] at hT <;> cases hT
  rcases hlag with ⟨hover, rfl, _⟩ | ⟨hwithin, rfl, _⟩
  · have hleft : (s.wr - (s.wr - ringNWord s + 1)).toNat = s.cfg.ringN - 1 := by
      rw [ringNWord]
      bv_omega
    simp only [hleft]
    omega
  · have hleft : (s.wr - (s.rd + 1)).toNat + 1 = (s.wr - s.rd).toNat := by bv_omega
    simp only [hleft]
    omega

theorem takeFromRing_none {s u : State} (hT : takeFromRing s = .ok (none, u)) : u = s := by
  rcases takeFromRing_cases s with ⟨_, hc⟩ | ⟨_, _, _, _, ⟨_, hc⟩ | ⟨_, _, hc⟩⟩ <;> rw [hc] at hT <;> cases hT
  rfl

@[simp] theorem forwardBlock_wr (b : Block) (s : State) : (forwardBlock b s).wr = s.wr := by rw [forwardBlock_eq]

@[simp] theorem forwardBlock_rd (b : Block) (s : State) : (forwardBlock b s).rd = s.rd := by rw [forwardBlock_eq]

@[simp] theorem forwardBlock_total (b : Block) (s : State) : (forwardBlock b s).total = s.total + 1 := by rw [forwardBlock_eq]

/-- A block that is forwarded is counted once, as a drop or as a new entry of the queue (R156). -/
theorem forwardBlock_counts_one (b : Block) (s : State) :
    ((forwardBlock b s).drops - s.drops).toNat + ((forwardBlock b s).bq.length - s.bq.length) = 1 := by
  rw [forwardBlock_eq]
  by_cases hfull : s.bq.length = s.cfg.queueDepth
  · simp [hfull]
  · simp [hfull]

/-- Settles O12: a refused tick and one on an empty ring move nothing, and else the pop accounts for the lag and the forwarding for
the block. -/
theorem tickAccountsForEveryBlock : Obligations.TickAccountsForEveryBlock := by
  intro s t hl h
  rcases exec_next h with ⟨why, rfl⟩ | ⟨x, v, rfl, _, _, _, _, hT | ⟨b, u, hT, rfl⟩⟩
  · simp
  · rw [takeFromRing_none hT]
    simp
  · have hlag := takeFromRing_lag hl hT
    have hcount := forwardBlock_counts_one b u
    have htotal : u.total = s.total := by rw [takeFromRing_frame hT]
    have hdrops : u.drops = s.drops := by rw [takeFromRing_frame hT]
    have hbq : u.bq = s.bq := by rw [takeFromRing_frame hT]
    have hone : s.total + 1 - s.total = 1 := by bv_omega
    have hmoved : s.total + 1 ≠ s.total := by bv_omega
    rw [hdrops, hbq] at hcount
    simp only [answerWith_wr, answerWith_rd, answerWith_total, answerWith_drops, answerWith_bq, forwardBlock_wr, forwardBlock_rd,
      forwardBlock_total, htotal, hone, if_neg hmoved]
    exact ⟨hlag, hcount.symm⟩

/-! ### The stop, and no restart but by RESET (R160, R216, R266) -/

/-- Settles O11: XFER.STOP checks its caller only, and writes `t_run` only. -/
theorem xferStopClearsTRun : Obligations.XferStopClearsTRun :=
  fun _ => ⟨fun h => ⟨.notOwner, ifOwner_neg h⟩, fun hc => ifOwner_pos hc⟩

/-- What is not refused was requested by its owner (R246). -/
theorem Effect.caller_eq {i : Instr} {s u : State} {x : Answer} (h : Effect i s x u) : s.caller = ownerOf i := by
  cases i with
  | capDeliver opt => cases opt <;> exact h.1
  | _ => exact h.1

/-- H alone writes the run flags (R39), and of H's operations only the two stops and RESET do. -/
theorem Effect.keepsStopped {i : Instr} {s u : State} {x : Answer} (h : Effect i s x u) (hi : i ≠ .reset) :
    (s.tRun = false → u.tRun = false) ∧ (s.bRun = false → u.bRun = false) := by
  obtain ⟨_, _, _, _, _, hwriter, _⟩ := h.writtenByItsWriter
  by_cases hH : s.caller = .H
  · cases i with
    | xferStop => obtain ⟨_, rfl, _⟩ := h; exact ⟨fun _ => rfl, id⟩
    | bstageStop => obtain ⟨_, rfl, _⟩ := h; exact ⟨id, fun _ => rfl⟩
    | ringLevel | diagRead => obtain ⟨_, rfl, _⟩ := h; exact ⟨id, id⟩
    | bqDiscard => obtain ⟨_, _, rfl, _⟩ := h; exact ⟨id, id⟩
    | reset => exact absurd rfl hi
    | _ => cases hH.symm.trans h.caller_eq
  · have hkept : u.tRun = s.tRun ∧ u.bRun = s.bRun := by
      simpa only [not_or, not_not] using mt hwriter hH
    exact ⟨hkept.1.trans, hkept.2.trans⟩

/-- Settles O35: a refusal writes nothing, and no effect but RESET's sets a run flag. -/
theorem onlyResetRestartsAStage : Obligations.OnlyResetRestartsAStage := by
  intro i s t h hi
  rcases exec_next h with ⟨why, rfl⟩ | ⟨x, u, rfl, hE⟩
  · exact ⟨id, id⟩
  · exact hE.keepsStopped hi

end Sys2Proof.Machine
end

