-- ==== Sys2Proof/Proofs/Decimation.lean ====
section
/-! PROOFS. The Decimation Engine (spec/43_decimation.md): the division (R173), the accumulator and the clamp (R174, R175), the laws
of the engine (R177, R178) and DECIMATE as a request (R171, R172). -/

namespace Sys2Proof.Machine

/-! ### The division by eight (R173) -/

/-- The quotient and its remainder, which has the sign of the dividend and magnitude 0 .. 7. -/
theorem divByEight_remainder (v : Int) :
    (0 ≤ v → 0 ≤ v - 8 * divByEight v ∧ v - 8 * divByEight v ≤ 7) ∧
      (v ≤ 0 → -7 ≤ v - 8 * divByEight v ∧ v - 8 * divByEight v ≤ 0) := by
  rw [divByEight_eq]
  split_ifs <;> omega

theorem divByEight_of_nonneg {v : Int} (h : 0 ≤ v) : divByEight v = v / 8 := by rw [divByEight_eq, if_pos h]

theorem divByEight_of_neg {v : Int} (h : v < 0) : divByEight v = -((-v) / 8) := by
  rw [divByEight_eq, if_neg (not_le.2 h)]

/-- Adding 7 to a negative dividend turns the floor division into the truncating one. -/
theorem divByEight_of_neg_biased {v : Int} (h : v < 0) : divByEight v = (v + 7) / 8 := by
  rw [divByEight_of_neg h]
  omega

theorem divByEight_eq_shift (v : Int) : divByEight v = (v + if v < 0 then 7 else 0) >>> (3 : Nat) := by
  rw [Int.shiftRight_eq_div_pow]
  by_cases h : v < 0
  · rw [if_pos h, divByEight_of_neg_biased h]
    rfl
  · rw [if_neg h, add_zero, divByEight_of_nonneg (not_lt.1 h)]
    rfl

/-- Settles O15: each form of the quotient on its own half of the integers, and the remainder. -/
theorem divisionTruncatesTowardZero : Obligations.DivisionTruncatesTowardZero := fun v =>
  have ⟨hnonneg, hnonpos⟩ := divByEight_remainder v
  ⟨divByEight_of_nonneg, fun h => ⟨divByEight_of_neg h, divByEight_of_neg_biased h⟩, divByEight_eq_shift v, hnonneg, hnonpos⟩

theorem divByEight_eight_mul (v : Int) : divByEight (8 * v) = v := Int.mul_tdiv_cancel_left v (by decide)

theorem divByEight_neg (v : Int) : divByEight (-v) = -divByEight v := Int.neg_tdiv v 8

/-- The mean of eight numbers is within their bounds, and so is the truncated mean. -/
theorem divByEight_bounds {lo hi v : Int} (h : 8 * lo ≤ v ∧ v ≤ 8 * hi) : lo ≤ divByEight v ∧ divByEight v ≤ hi := by
  rw [divByEight_eq]
  split_ifs <;> omega

theorem abs_eight_mul_divByEight_sub_lt (v : Int) : |8 * divByEight v - v| < 8 := by
  have ⟨hnonneg, hnonpos⟩ := divByEight_remainder v
  rw [abs_lt]
  omega

theorem abs_eight_mul_divByEight_le (v : Int) : |8 * divByEight v| ≤ |v| := by
  rcases le_total 0 v with h | h
  · have hrem := (divByEight_remainder v).1 h
    have hq := divByEight_bounds (lo := 0) (hi := v) (v := v) (by omega)
    rw [abs_of_nonneg (by omega), abs_of_nonneg h]
    omega
  · have hrem := (divByEight_remainder v).2 h
    have hq := divByEight_bounds (lo := v) (hi := 0) (v := v) (by omega)
    rw [abs_of_nonpos (by omega), abs_of_nonpos h]
    omega

/-! ### The accumulator and the clamp (R174, R175) -/

theorem clamp_eq_self {v : Int} (h : -8388608 ≤ v ∧ v ≤ 8388607) : clamp v = v := by
  rw [clamp, max_eq_right h.1, min_eq_right h.2]

theorem sum_bounds_of_eight {xs : List Int} {lo hi : Int} (hlen : xs.length = 8) (h : ∀ x ∈ xs, lo ≤ x ∧ x ≤ hi) :
    8 * lo ≤ xs.sum ∧ xs.sum ≤ 8 * hi := by
  have hlo := List.card_nsmul_le_sum xs lo fun x hx => (h x hx).1
  have hhi := List.sum_le_card_nsmul xs hi fun x hx => (h x hx).2
  rw [hlen, nsmul_eq_mul] at hlo hhi
  exact ⟨hlo, hhi⟩

/-- Eight in-range samples have an in-range mean, which the clamp leaves alone (R174). -/
theorem clamp_divByEight_sum {xs : List Int} (hlen : xs.length = 8) (h : ∀ x ∈ xs, -8388608 ≤ x ∧ x ≤ 8388607) :
    clamp (divByEight xs.sum) = divByEight xs.sum :=
  clamp_eq_self (divByEight_bounds (sum_bounds_of_eight hlen h))

/-- Settles O16: decoded samples are in range, eight of them sum to eight times their bounds at most, and their mean is in range. -/
theorem eightSamplesNeverOverflowOrClamp : Obligations.EightSamplesNeverOverflowOrClamp := by
  intro ws hlen
  have hlen' : (ws.map decodeSample).length = 8 := by rw [List.length_map, hlen]
  have hrange : ∀ x ∈ ws.map decodeSample, -8388608 ≤ x ∧ x ≤ 8388607 :=
    List.forall_mem_map.2 fun w _ => decodeSample_bounds w
  have ⟨hlo, hhi⟩ := sum_bounds_of_eight hlen' hrange
  exact ⟨hlo, hhi, clamp_divByEight_sum hlen' hrange⟩

/-! ### The laws of the engine (R178) -/

/-- Lane sums do not depend on the order of two blocks, whatever their lengths. -/
theorem zipWith_add_right_comm (acc xs ys : List Int) :
    List.zipWith (· + ·) (List.zipWith (· + ·) acc xs) ys = List.zipWith (· + ·) (List.zipWith (· + ·) acc ys) xs := by
  apply List.ext_getElem
  · simp only [List.length_zipWith, Nat.min_assoc, Nat.min_comm xs.length]
  · intro j _ _
    simp only [List.getElem_zipWith, add_right_comm]

theorem decimateBlocks_perm {bs bs' : List Block} (h : bs.Perm bs') : decimateBlocks bs = decimateBlocks bs' := by
  have hsums : laneSums bs = laneSums bs' :=
    h.foldl_eq (rcomm := ⟨fun acc b b' => zipWith_add_right_comm acc (samplesOf b) (samplesOf b')⟩) _
  rw [decimateBlocks, decimateBlocks, hsums]

theorem encodeSample_high_byte (v : Int) : (encodeSample v).extractLsb' 24 8 = 0 := by
  have hv := (BitVec.ofInt 24 v).isLt
  apply BitVec.eq_of_toNat_eq
  simp only [encodeSample, BitVec.extractLsb'_toNat, BitVec.toNat_setWidth, Nat.shiftRight_eq_div_pow, BitVec.ofNat_eq_ofNat,
    BitVec.toNat_ofNat]
  omega

/-- Settles O17: without the clamp, which changes nothing in range, the laws of the sum are those of the division. -/
theorem decimationLaws : Obligations.DecimationLaws := by
  refine ⟨fun xs hlen hrange => ?_, fun _ _ => decimateBlocks_perm, encodeSample_high_byte⟩
  rw [clamp_divByEight_sum hlen hrange]
  refine ⟨fun lo hi h => divByEight_bounds (sum_bounds_of_eight hlen h), fun hleast => ?_,
    abs_eight_mul_divByEight_sub_lt _, abs_eight_mul_divByEight_le _⟩
  have hlen' : (xs.map fun x => -x).length = 8 := by rw [List.length_map, hlen]
  have hrange' : ∀ y ∈ xs.map fun x => -x, -8388608 ≤ y ∧ y ≤ 8388607 := by
    refine List.forall_mem_map.2 fun x hx => ?_
    have hne := hleast x hx
    have ⟨hlo, hhi⟩ := hrange x hx
    omega
  rw [clamp_divByEight_sum hlen' hrange', ← List.sum_neg, divByEight_neg]

/-! ### Equal samples and the extremes (R177) -/

/-- Eight times a sample is divided, clamped and repacked to the low 24 bits of the sample's slot. -/
theorem laneOut_eight_mul_decodeSample (w : Word) : laneOut (8 * decodeSample w) = w &&& 0x00FFFFFF#32 := by
  rw [laneOut, divByEight_eight_mul, clamp_eq_self (decodeSample_bounds w), encodeSample_decodeSample]

theorem decimateBlocks_slot_of_equal {bs : List Block} {j : Nat} {w : Word} (hlen : bs.length = 8)
    (hbs : ∀ b ∈ bs, b.length = 512) (hj : j < 128) (hw : ∀ b ∈ bs, rdLe32 b (4 * j) = w) :
    rdLe32 (decimateBlocks bs) (4 * j) = w &&& 0x00FFFFFF#32 := by
  have hsamples : (bs.map fun b => decodeSample (slotAt b j)) = List.replicate 8 (decodeSample w) := by
    rw [← hlen, ← List.map_const']
    exact List.map_congr_left fun b hb => congrArg decodeSample (hw b hb)
  rw [decimateBlocks_slot hbs hj, hsamples, List.sum_replicate, nsmul_eq_mul]
  exact laneOut_eight_mul_decodeSample w

/-- Settles O18: a lane of equal slots sums to eight times the sample, and a lane of alternating extremes to −4, whose quotient is 0. -/
theorem equalSamplesDecimateToThemselves : Obligations.EqualSamplesDecimateToThemselves := by
  refine ⟨fun bs j w => decimateBlocks_slot_of_equal, fun b hb => ?_, fun hi lo hhi hlo j hj hmax hmin => ?_⟩
  · have hbs : ∀ c ∈ List.replicate 8 b, c.length = 512 := fun c hc => List.eq_of_mem_replicate hc ▸ hb
    exact ⟨decimateBlocks_length hbs, fun j hj => decimateBlocks_slot_of_equal List.length_replicate hbs hj
      fun c hc => by rw [List.eq_of_mem_replicate hc]⟩
  · have hbs : ∀ b ∈ [hi, lo, hi, lo, hi, lo, hi, lo], b.length = 512 := by simp [hhi, hlo]
    have hsum : ([hi, lo, hi, lo, hi, lo, hi, lo].map fun b => decodeSample (slotAt b j)).sum = -4 := by
      simp only [List.map_cons, List.map_nil, slotAt, hmax, hmin]
      decide
    rw [decimateBlocks_slot hbs hj, hsum]
    decide

/-! ### DECIMATE as a request (R171, R172) -/

/-- Settles O13: the guards refuse, and else the request answers what `decimateBlocks` puts into each slot. -/
theorem decimateAveragesLaneByLane : Obligations.DecimateAveragesLaneByLane := fun _ _ =>
  ⟨fun h => ifAdmitted_neg h, fun hc hf _ hbs =>
    ⟨_, ifAdmitted_pos hc hf, decimateBlocks_length hbs, fun _ hj => decimateBlocks_slot hbs hj⟩⟩

end Sys2Proof.Machine
end

