-- ==== Sys2Proof/Proofs/BatchAssembler.lean ====
section
/-! PROOFS. The Batch Assembler and the Wire Frame Codec (spec/44_batch_assembler_codec.md): the two operations (R191, R195), a batch
of appends (R190), and the sequence law (R193). -/

namespace Sys2Proof.Machine

/-! ### ASM.APPEND for the agent that owns it (R191) -/

theorem exec_asmAppend_misshapen {s : State} {d : Block} (now : Word) (hc : s.caller = .B) (hf : s.fault = false)
    (hd : d.length ≠ 512) : exec (.asmAppend d now) s = .next (answerWith (.faultRaised 4) (raiseFault 4 s)) :=
  (ifAdmitted_pos hc hf).trans (if_neg hd)

theorem exec_asmAppend_ok {s u : State} {d : Block} {now : Word} {out : Option Bytes} (hc : s.caller = .B)
    (hf : s.fault = false) (hd : d.length = 512) (hA : appendBlock d now s = (out, u)) :
    exec (.asmAppend d now) s = .next (answerWith (.completed (blockResponse out)) u) := by
  refine (ifAdmitted_pos hc hf).trans ((if_pos hd).trans ?_)
  rw [hA]
  rfl

/-- `first` and `ts` are the number and the reading that the batch has once a block numbered by `s` and read at `now` is in it: those
of the block itself when it is the batch's first, else those recorded before (R191). -/
def BatchStamp (s : State) (now first ts : Word) : Prop :=
  (s.a = 0 → first = s.seq ∧ ts = now) ∧ (s.a ≠ 0 → first = s.seqFirstR ∧ ts = s.ts0)

theorem BatchStamp.eq_ite {s : State} {now first ts : Word} (h : BatchStamp s now first ts) :
    first = (if s.a = 0 then s.seq else s.seqFirstR) ∧ ts = if s.a = 0 then now else s.ts0 := by
  obtain ⟨hfirst, hlater⟩ := h
  split_ifs with h0
  · exact hfirst h0
  · exact hlater h0

theorem appendBlock_more {s : State} (d : Block) {now first ts : Word} (h : BatchStamp s now first ts)
    (hk : s.a + 1 ≠ s.cfg.batchK) :
    appendBlock d now s =
      (none, { s with seqFirstR := first, ts0 := ts, acc := s.acc ++ d, a := s.a + 1, seq := s.seq + 1 }) := by
  obtain ⟨rfl, rfl⟩ := h.eq_ite
  rcases appendBlock_cases d now s with ⟨_, hA⟩ | ⟨hlast, _⟩
  · exact hA
  · exact absurd hlast hk

theorem appendBlock_last {s : State} (d : Block) {now first ts : Word} (h : BatchStamp s now first ts)
    (hk : s.a + 1 = s.cfg.batchK) :
    appendBlock d now s =
      (some (encodeFrame s.cfg first ts (s.acc ++ d)),
        { s with seqFirstR := first, ts0 := ts, acc := [], a := 0, seq := s.seq + 1 }) := by
  obtain ⟨rfl, rfl⟩ := h.eq_ite
  rcases appendBlock_cases d now s with ⟨hmore, _⟩ | ⟨_, hA⟩
  · exact absurd hk hmore
  · exact hA

/-- Settles O20: the guards refuse, a block that is not whole raises the fault, and else the append is the batch's own, last or not. -/
theorem asmAppendNumbersAndCompletes : Obligations.AsmAppendNumbersAndCompletes := fun _ d now =>
  ⟨fun h => ifAdmitted_neg h, exec_asmAppend_misshapen now, fun hc hf hd _ _ hfirst hlater =>
    ⟨fun hk => exec_asmAppend_ok hc hf hd (appendBlock_more d ⟨hfirst, hlater⟩ hk),
      fun hk => exec_asmAppend_ok hc hf hd (appendBlock_last d ⟨hfirst, hlater⟩ hk)⟩⟩

/-! ### FRAME.ENCODE (R195) -/

/-- The header's constants as the bytes that R195 prints. -/
theorem encodeFrame_bytes (c : Params) (sf ts : Word) (body : Bytes) :
    encodeFrame c sf ts body =
      [0x4A, 0x51, 0x4D, 0x42, 0x02, 0x03, 0x18, 0x00] ++ le32 sf ++ le16 (BitVec.ofNat 16 c.batchK) ++ [0x00, 0x02]
        ++ le32 ts ++ le16 c.sampleRateHz ++ [0x02, 0x18, 0x20, 0x00] ++ le32 c.devId ++ body := by
  have hlen : le16 24 = [0x18, 0x00] := by decide
  have hsize : le16 512 = [0x00, 0x02] := by decide
  rw [encodeFrame_layout, hlen, hsize]
  simp only [List.append_assoc, List.cons_append, List.nil_append]

/-- Settles O21: the guards refuse, and else the request answers the frame and writes nothing. -/
theorem frameEncodeAnswersHeaderAndBody : Obligations.FrameEncodeAnswersHeaderAndBody := by
  intro s sf ts body
  refine ⟨fun h => ifAdmitted_neg h, fun hc hf => ?_⟩
  rw [← encodeFrame_bytes]
  exact ifAdmitted_pos hc hf

/-! ### A batch of appends (R190, R193) -/

theorem execAll_cons_of_next {i : Instr} {is : List Instr} {s t : State} (h : exec i s = .next t) :
    execAll (i :: is) s = execAll is t := by
  rw [execAll, h]

/-- Appends that do not go past the batch: while it is short of `BATCH_K` blocks there is no frame, and the `BATCH_K`-th hands out the
frame of all of them. After each append the batch is no longer empty, so the stamp of the first one stands. -/
theorem execAll_asmAppends {es : List (Block × Word)} {e : Block × Word} {s : State} {first ts : Word} (hc : s.caller = .B)
    (hf : s.fault = false) (hstamp : BatchStamp s e.2 first ts) (hle : s.a + (es.length + 1) ≤ s.cfg.batchK)
    (hb : ∀ x ∈ e :: es, x.1.length = 512) :
    ∃ t, execAll ((e :: es).map fun x => .asmAppend x.1 x.2) s = .next t ∧
      (s.a + (es.length + 1) ≠ s.cfg.batchK → t.answer = .completed [0]) ∧
      (s.a + (es.length + 1) = s.cfg.batchK →
        t.answer = .completed (1 :: encodeFrame s.cfg first ts (s.acc ++ ((e :: es).map Prod.fst).flatten)) ∧
        t.a = 0 ∧ t.acc = [] ∧ t.seq = s.seq + BitVec.ofNat 32 (es.length + 1)) := by
  have ⟨hd, hb'⟩ := List.forall_mem_cons.1 hb
  rw [List.map_cons]
  induction es generalizing e s with
  | nil =>
    by_cases hk : s.a + 1 = s.cfg.batchK
    · refine ⟨_, execAll_cons_of_next (exec_asmAppend_ok hc hf hd (appendBlock_last e.1 hstamp hk)), absurd hk, fun _ => ?_⟩
      simp [blockResponse]
    · exact ⟨_, execAll_cons_of_next (exec_asmAppend_ok hc hf hd (appendBlock_more e.1 hstamp hk)), fun _ => rfl,
        fun h => absurd h hk⟩
  | cons e' es ih =>
    rw [List.length_cons] at hle ⊢
    have hk : s.a + 1 ≠ s.cfg.batchK := by omega
    have hcount : s.a + 1 + (es.length + 1) = s.a + (es.length + 1 + 1) := by omega
    have hseq : s.seq + 1 + BitVec.ofNat 32 (es.length + 1) = s.seq + BitVec.ofNat 32 (es.length + 1 + 1) := by bv_omega
    rw [execAll_cons_of_next (exec_asmAppend_ok hc hf hd (appendBlock_more e.1 hstamp hk)), List.map_cons (a := e),
      List.flatten_cons, ← List.append_assoc, ← hcount, ← hseq]
    have ⟨hd', hrest⟩ := List.forall_mem_cons.1 hb'
    exact ih hc hf ⟨fun h0 => absurd h0 (Nat.succ_ne_zero _), fun _ => ⟨rfl, rfl⟩⟩ (hcount ▸ hle) hb' hd' hrest

/-- Settles O23: the batch is empty at the start, so the first append stamps it with its own number and reading; all but the last
leave it short of `BATCH_K` blocks. -/
theorem batchOfAppendsMakesOneFrame : Obligations.BatchOfAppendsMakesOneFrame := by
  intro s ds d₀ now₀ hc hf ha hacc hlen hb
  have hstamp : BatchStamp s now₀ s.seq now₀ := ⟨fun _ => ⟨rfl, rfl⟩, fun h => absurd ha h⟩
  refine ⟨fun k hk hkds => ?_, ?_⟩
  · obtain ⟨j, rfl⟩ := Nat.exists_eq_add_of_le' hk
    have hlt : s.a + ((ds.take j).length + 1) < s.cfg.batchK := by
      rw [List.length_take]
      omega
    have hbj : ∀ x ∈ (d₀, now₀) :: ds.take j, x.1.length = 512 := fun x hx => hb x (List.mem_of_mem_take (i := j + 1) hx)
    obtain ⟨t, ht, hshort, _⟩ := execAll_asmAppends hc hf hstamp hlt.le hbj
    exact ⟨t, ht, hshort hlt.ne⟩
  · have hall : s.a + (ds.length + 1) = s.cfg.batchK := by omega
    obtain ⟨t, ht, _, hframe⟩ := execAll_asmAppends hc hf hstamp hall.le hb
    have hfinal := hframe hall
    rw [hacc, List.nil_append, hlen] at hfinal
    exact ⟨t, ht, hfinal⟩

/-! ### The sequence law (R193) -/

/-- Block `d` joined the batch: `seq` is one higher, and the batch has the block, or was completed by it and is empty. -/
def JoinsBatch (d : Block) (s t : State) : Prop :=
  t.seq = s.seq + 1 ∧
    ((s.a + 1 ≠ s.cfg.batchK ∧ t.a = s.a + 1 ∧ t.acc = s.acc ++ d) ∨ (s.a + 1 = s.cfg.batchK ∧ t.a = 0 ∧ t.acc = []))

/-- Nothing joined the batch and nothing left it. -/
def KeepsBatch (s t : State) : Prop := t.seq = s.seq ∧ t.a = s.a ∧ t.acc = s.acc

theorem appendBlock_joinsBatch (d : Block) (now : Word) (s : State) : JoinsBatch d s (appendBlock d now s).2 := by
  rcases appendBlock_cases d now s with ⟨hk, hA⟩ | ⟨hk, hA⟩ <;> rw [hA]
  · exact ⟨rfl, .inl ⟨hk, rfl, rfl⟩⟩
  · exact ⟨rfl, .inr ⟨hk, rfl, rfl⟩⟩

theorem finishGroup_joinsBatch (bs : List Block) (s : State) : JoinsBatch (decimateBlocks bs) s (finishGroup bs s) := by
  rcases finishGroup_eq bs s with ⟨hk, hG⟩ | ⟨hk, hG⟩ <;> rw [hG]
  · exact ⟨rfl, .inl ⟨hk, rfl, rfl⟩⟩
  · exact ⟨rfl, .inr ⟨hk, rfl, rfl⟩⟩

@[simp] theorem finishGroup_gbuf (bs : List Block) (s : State) : (finishGroup bs s).gbuf = s.gbuf := by
  rcases finishGroup_eq bs s with ⟨_, hG⟩ | ⟨_, hG⟩ <;> rw [hG]

/-- The count of the gathered blocks starts again once the group is complete (R212). -/
theorem finishGroup_count (bs : List Block) (s : State) : (finishGroup bs s).g = 0 := by
  rcases finishGroup_eq bs s with ⟨_, hG⟩ | ⟨_, hG⟩ <;> rw [hG]

/-- An append completes, and its block joins the batch, or raises the fault and leaves the batch alone (R191). -/
theorem Effect.asmAppend_batch {d : Block} {now : Word} {s u : State} {x : Answer} (h : Effect (.asmAppend d now) s x u) :
    (KeepsBatch s u ∧ ¬ ∃ p, x = .completed p) ∨ ((∃ p, x = .completed p) ∧ d.length = 512 ∧ JoinsBatch d s u) := by
  obtain ⟨_, _, ⟨hd, rfl, rfl⟩ | ⟨_, rfl, rfl⟩⟩ := h
  · exact .inr ⟨⟨_, rfl⟩, hd, appendBlock_joinsBatch d now s⟩
  · exact .inl ⟨⟨rfl, rfl, rfl⟩, by simp⟩

/-- A step completes a group, which joins the batch as one block, or leaves the batch alone (R212). -/
theorem Effect.bstageStep_batch {s u : State} {x : Answer} (h : Effect .bstageStep s x u) :
    (KeepsBatch s u ∧ ¬ (s.g = 7 ∧ u.g = 0)) ∨
      ((s.g = 7 ∧ u.g = 0) ∧ ∃ bs, gatheredBlocks u.gbuf = some bs ∧ (s.Inv → (decimateBlocks bs).length = 512) ∧
        JoinsBatch (decimateBlocks bs) s u) := by
  obtain ⟨_, _, _, _, ⟨_, rfl⟩ | ⟨b, rest, hq, ⟨_, rfl⟩ | ⟨h7, bs, hbs, rfl⟩⟩⟩ := h
  · exact .inl ⟨⟨rfl, rfl, rfl⟩, by omega⟩
  · exact .inl ⟨⟨rfl, rfl, rfl⟩, fun h => Nat.succ_ne_zero _ h.2⟩
  · refine .inr ⟨⟨h7, finishGroup_count bs _⟩, bs, by rw [finishGroup_gbuf, hbs], fun hs => ?_, finishGroup_joinsBatch bs _⟩
    rw [← h7] at hbs
    exact decimateBlocks_length
      (gatheredBlocks_length (hs.gather.blocks_write (hs.queue.blocks b (hq ▸ List.mem_cons_self))) hbs)

/-- B alone writes `seq`, `a` and `acc`, but for BSTAGE.STOP and RESET (R39), and of B's operations only the two that append do. -/
theorem Effect.keepsBatch {i : Instr} {s u : State} {x : Answer} (h : Effect i s x u) (happend : ¬ ∃ d now, i = .asmAppend d now)
    (hstep : i ≠ .bstageStep) (hstop : i ≠ .bstageStop) (hreset : i ≠ .reset) : KeepsBatch s u := by
  by_cases hB : s.caller = .B
  · cases i with
    | bqPop =>
      obtain ⟨_, _, rfl, _⟩ := h
      rcases queueTake_cases s with ⟨_, hq⟩ | ⟨_, _, _, hq⟩ <;> rw [hq] <;> exact ⟨rfl, rfl, rfl⟩
    | decimate | frameEncode => obtain ⟨_, _, rfl, _⟩ := h; exact ⟨rfl, rfl, rfl⟩
    | sinkPublish f =>
      obtain ⟨_, _, rfl, _⟩ := h
      rw [publish_eq]
      exact ⟨rfl, rfl, rfl⟩
    | asmAppend d now => exact absurd ⟨d, now, rfl⟩ happend
    | bstageStep => exact absurd rfl hstep
    | _ => cases hB.symm.trans h.caller_eq
  · obtain ⟨_, _, _, hseq, hbatch, _, _⟩ := h.writtenByItsWriter
    simp only [hB, hstop, hreset, and_false, or_false, imp_false, not_or, not_not] at hseq hbatch
    obtain ⟨_, _, _, hseq, _⟩ := hseq
    exact ⟨hseq, hbatch.2⟩

/-- Settles O36: a completed ASM.APPEND and a step that completes a group are the two ways in which a block joins the batch; every
other effect, and a refusal, keeps the batch, but for BSTAGE.STOP. -/
theorem sequenceAdvancesOncePerDecimatedBlock : Obligations.SequenceAdvancesOncePerDecimatedBlock := by
  intro i s t h hi appended
  rcases exec_next h with ⟨why, rfl⟩ | ⟨x, u, rfl, hE⟩
  · have hnone : ¬ appended := by
      rintro (⟨_, p, hp⟩ | ⟨_, h7, h0⟩)
      · cases hp
      · exact absurd (h7.symm.trans h0) (by decide)
    exact ⟨fun _ => ⟨rfl, .inl ⟨rfl, rfl⟩⟩, fun ha => absurd ha hnone⟩
  · by_cases happend : ∃ d now, i = .asmAppend d now
    · obtain ⟨d, now, rfl⟩ := happend
      rcases hE.asmAppend_batch with ⟨⟨hseq, hkept⟩, hnot⟩ | ⟨hdone, hd, hseq, hbatch⟩
      · have hnone : ¬ appended := fun ha => ha.elim (fun h => hnot h.2) (fun h => nomatch h.1)
        exact ⟨fun _ => ⟨hseq, .inl hkept⟩, fun ha => absurd ha hnone⟩
      · have hone : appended := .inl ⟨⟨d, now, rfl⟩, hdone⟩
        exact ⟨fun hnone => absurd hone hnone, fun _ => ⟨hseq, d, .inl ⟨⟨now, rfl⟩, hd⟩, hbatch⟩⟩
    · by_cases hstep : i = .bstageStep
      · subst hstep
        rcases hE.bstageStep_batch with ⟨⟨hseq, hkept⟩, hnot⟩ | ⟨hgroup, bs, hbs, hlen, hseq, hbatch⟩
        · have hnone : ¬ appended := fun ha => ha.elim (fun h => happend h.1) (fun h => hnot h.2)
          exact ⟨fun _ => ⟨hseq, .inl hkept⟩, fun ha => absurd ha hnone⟩
        · have hone : appended := .inr ⟨rfl, hgroup⟩
          exact ⟨fun hnone => absurd hone hnone,
            fun _ => ⟨hseq, decimateBlocks bs, .inr ⟨rfl, ⟨bs, hbs, rfl⟩, hlen⟩, hbatch⟩⟩
      · have hnone : ¬ appended := fun ha => ha.elim (fun h => happend h.1) (fun h => hstep h.1)
        refine ⟨fun _ => ?_, fun ha => absurd ha hnone⟩
        by_cases hstop : i = .bstageStop
        · subst hstop
          obtain ⟨_, rfl, _⟩ := hE
          exact ⟨rfl, .inr ⟨rfl, rfl, rfl⟩⟩
        · have ⟨hseq, hkept⟩ := hE.keepsBatch happend hstep hstop hi
          exact ⟨hseq, .inl hkept⟩

end Sys2Proof.Machine
end

