-- ==== Sys2Proof/Proofs/BatchStage.lean ====
section
/-! PROOFS. Capture delivery, the Batch/Decimate Stage and the sink (spec/45_batch_stage.md): the four operations (R210, R212, R214,
R216), and the frame that 8·`BATCH_K` queued blocks make (R218). -/

namespace Sys2Proof.Machine

/-! ### Capture delivery and the stop (R210, R216) -/

theorem exec_capDeliver_some {s : State} (b : Block) (hc : s.caller = .P) (hf : s.fault = false) :
    exec (.capDeliver (some b)) s = presentBlock b s :=
  ifAdmitted_pos hc hf

/-- Settles O24: the guard refuses, nothing captured is nothing done, and a captured block is presented as RING.PUSH presents it. -/
theorem capDeliverPushesWhatWasCaptured : Obligations.CapDeliverPushesWhatWasCaptured := fun s =>
  ⟨fun _ h => ifAdmitted_neg h, fun hc hf => ifAdmitted_pos hc hf,
    fun b hc hf hb => (exec_capDeliver_some b hc hf).trans (if_neg hb), fun b hc hf hb =>
      ⟨s.slots.write (slotIndex s s.wr) b, (exec_capDeliver_some b hc hf).trans (if_pos hb),
        Memory.read_write s.slots (slotIndex s s.wr) b⟩⟩

/-- Settles O28: BSTAGE.STOP checks its caller only, and writes what it discards and `b_run`. -/
theorem bstageStopDiscardsPartialBatch : Obligations.BstageStopDiscardsPartialBatch :=
  fun _ => ⟨fun h => ⟨.notOwner, ifOwner_neg h⟩, fun hc => ifOwner_pos hc⟩

/-! ### The offer to the sink (R214) -/

/-- A 2-bit code has four values, so its answer and the answer's byte are given by three clauses (R50, R101). -/
theorem pubResultOfCode_eq {code : BitVec 2} {res : PubResult} {byte : Byte} (h0 : code = 0 → res = .ok ∧ byte = 0)
    (h1 : code = 1 → res = .notReady ∧ byte = 1) (h23 : code = 2 ∨ code = 3 → res = .error ∧ byte = 2) :
    pubResultOfCode code = res ∧ pubResultByte res = byte := by
  have hcode : code = 0 ∨ code = 1 ∨ code = 2 ∨ code = 3 := by bv_omega
  rcases hcode with rfl | rfl | hhigh
  · obtain ⟨rfl, rfl⟩ := h0 rfl
    exact ⟨rfl, rfl⟩
  · obtain ⟨rfl, rfl⟩ := h1 rfl
    exact ⟨rfl, rfl⟩
  · obtain ⟨rfl, rfl⟩ := h23 hhigh
    rcases hhigh with rfl | rfl <;> exact ⟨rfl, rfl⟩

/-- Settles O27: the guard refuses, and else the answer is that of the code drawn, in the trace and in the response. -/
theorem sinkPublishOffersOnceAndRecords : Obligations.SinkPublishOffersOnceAndRecords := by
  intro s frame
  refine ⟨fun h => ifAdmitted_neg h, ?_⟩
  intro hc hf code res byte h0 h1 h23
  obtain ⟨rfl, rfl⟩ := pubResultOfCode_eq h0 h1 h23
  refine (ifAdmitted_pos hc hf).trans ?_
  rw [publish_eq]
  rfl

/-! ### One step of the stage (R212) -/

/-- A stage's activation is refused to other agents, while faulted and while the stage is stopped (R251). -/
theorem ifAdmitted_ifRunning_neg {o : Agent} {run : Bool} {s : State} {r : Result}
    (h : s.caller ≠ o ∨ s.fault = true ∨ run = false) : ∃ why, ifAdmitted o s (ifRunning run s r) = refuse why s := by
  rcases ifAdmitted_cases o s (ifRunning run s r) with hrefused | ⟨hc, hf, hbody⟩
  · exact hrefused
  · have hrun : run = false := by simpa [hc, hf] using h
    exact ⟨.stopped, hbody.trans (ifRunning_neg hrun)⟩

/-- B calls, and its stage runs without a fault: a BSTAGE.STEP is not refused (R251). -/
def ServesStep (s : State) : Prop := s.caller = .B ∧ s.fault = false ∧ s.bRun = true

theorem exec_bstageStep_nil {s : State} (hs : ServesStep s) (hq : s.bq = []) :
    exec .bstageStep s = .next (answerWith (.completed []) s) := by
  obtain ⟨hc, hf, hrun⟩ := hs
  refine (ifAdmitted_pos hc hf).trans ((ifRunning_pos hrun).trans ?_)
  rw [queueTake_nil hq]
  rfl

theorem gatherBlock_more (b : Block) {s : State} (h : s.g < 7) :
    gatherBlock b s = .next (answerWith (.completed []) { s with gbuf := s.gbuf.write s.g b, g := s.g + 1 }) := by
  rcases gatherBlock_cases b s with ⟨h8, _⟩ | ⟨_, hg⟩ | ⟨h7, _⟩ | ⟨h7, _⟩
  · omega
  · exact hg
  · omega
  · omega

theorem gatherBlock_eighth {b : Block} {bs : List Block} {s : State} (h : s.g = 7)
    (hbs : gatheredBlocks (s.gbuf.write 7 b) = some bs) :
    gatherBlock b s = .next (answerWith (.completed []) (finishGroup bs { s with gbuf := s.gbuf.write 7 b, g := 8 })) := by
  rcases gatherBlock_cases b s with ⟨h8, _⟩ | ⟨hlt, _⟩ | ⟨_, hnone, _⟩ | ⟨_, bs', hbs', hg⟩
  · omega
  · omega
  · cases hnone.symm.trans hbs
  · cases hbs'.symm.trans hbs
    exact hg

/-- The group in progress is `xs`: so many blocks are counted, and they are the entries 0 and on of the gather buffer (R29). -/
structure Gathered (s : State) (xs : List Block) : Prop where
  count : s.g = xs.length
  read : ∀ i < xs.length, s.gbuf.read i = xs[i]?

theorem Gathered.nil {s : State} (h : s.g = 0) : Gathered s [] := ⟨h, fun _ hi => absurd hi (Nat.not_lt_zero _)⟩

theorem Gathered.read_write {s : State} {xs : List Block} (h : Gathered s xs) (b : Block) :
    ∀ i < (xs ++ [b]).length, (s.gbuf.write s.g b).read i = (xs ++ [b])[i]? := by
  intro i hi
  rw [List.length_append, List.length_singleton] at hi
  rw [Memory.read_write, h.count]
  split_ifs with hlast
  · rw [hlast, List.getElem?_concat_length]
  · have hlt : i < xs.length := by omega
    rw [List.getElem?_append_left hlt, h.read i hlt]

/-- A block short of the eighth is gathered and the group in progress has it at its end. -/
theorem Gathered.append {s : State} {xs rest : List Block} {x : Answer} (h : Gathered s xs) (b : Block) :
    Gathered (answerWith x { s with bq := rest, gbuf := s.gbuf.write s.g b, g := s.g + 1 }) (xs ++ [b]) :=
  ⟨by rw [List.length_append, List.length_singleton, ← h.count]; rfl, h.read_write b⟩

/-- The eighth block completes the group. -/
theorem Gathered.complete {s : State} {xs : List Block} (h : Gathered s xs) (h7 : xs.length = 7) (b : Block) :
    gatheredBlocks (s.gbuf.write 7 b) = some (xs ++ [b]) := by
  have hlen : (xs ++ [b]).length = 8 := by rw [List.length_append, h7, List.length_singleton]
  have hread := h.read_write b
  rw [hlen, h.count, h7] at hread
  exact gatheredBlocks_eq_some.2 ⟨hlen, hread⟩

theorem exec_bstageStep_gathers {s : State} {b : Block} {rest : List Block} (hs : ServesStep s) (hq : s.bq = b :: rest)
    (hg : s.g < 7) :
    exec .bstageStep s =
      .next (answerWith (.completed []) { s with bq := rest, gbuf := s.gbuf.write s.g b, g := s.g + 1 }) := by
  obtain ⟨hc, hf, hrun⟩ := hs
  exact (exec_bstageStep_cons hc hf hrun hq).trans (gatherBlock_more b hg)

/-- The count that the eighth block brings does not matter: finishing the group sets it to 0 (`finishGroup_g`). -/
theorem exec_bstageStep_eighth {s : State} {b : Block} {rest xs : List Block} (hs : ServesStep s) (hq : s.bq = b :: rest)
    (hg : Gathered s xs) (h7 : xs.length = 7) :
    exec .bstageStep s =
      .next (answerWith (.completed []) (finishGroup (xs ++ [b]) { s with bq := rest, gbuf := s.gbuf.write 7 b })) := by
  obtain ⟨hc, hf, hrun⟩ := hs
  exact (exec_bstageStep_cons hc hf hrun hq).trans (gatherBlock_eighth (hg.count.trans h7) (hg.complete h7 b))

theorem finishGroup_more (bs : List Block) {s : State} {first ts : Word}
    (h : BatchStamp s (s.nowIn.headD (Config.nowMs s.nowDraws)) first ts) (hk : s.a + 1 ≠ s.cfg.batchK) :
    finishGroup bs s =
      { s with g := 0, nowIn := s.nowIn.tail, nowDraws := s.nowDraws + 1, seqFirstR := first, ts0 := ts,
               acc := s.acc ++ decimateBlocks bs, a := s.a + 1, seq := s.seq + 1 } := by
  obtain ⟨rfl, rfl⟩ := h.eq_ite
  rcases finishGroup_eq bs s with ⟨_, hG⟩ | ⟨hlast, _⟩
  · exact hG
  · exact absurd hlast hk

theorem finishGroup_last (bs : List Block) {s : State} {first ts : Word}
    (h : BatchStamp s (s.nowIn.headD (Config.nowMs s.nowDraws)) first ts) (hk : s.a + 1 = s.cfg.batchK) :
    let frame := encodeFrame s.cfg first ts (s.acc ++ decimateBlocks bs)
    let res := pubResultOfCode (s.pubIn.headD (Config.pubResult s.pubDraws))
    finishGroup bs s =
      { s with g := 0, nowIn := s.nowIn.tail, nowDraws := s.nowDraws + 1, seqFirstR := first, ts0 := ts, acc := [], a := 0,
               seq := s.seq + 1, pubIn := s.pubIn.tail, pubDraws := s.pubDraws + 1
               pubOut := s.pubOut ++ [(s.cfg.topicHint, frame)], pubTrace := s.pubTrace ++ [(frame, res)]
               sinkNotReady := if res = .notReady then s.sinkNotReady + 1 else s.sinkNotReady
               sinkError := if res = .error then s.sinkError + 1 else s.sinkError } := by
  obtain ⟨rfl, rfl⟩ := h.eq_ite
  rcases finishGroup_eq bs s with ⟨hmore, _⟩ | ⟨_, hG⟩
  · exact absurd hk hmore
  · exact hG

/-- Settles O25: the guards refuse, an empty queue is left alone, a block short of the eighth is gathered, and with the eighth the
group is complete and is finished as one block of the batch, the last or not. -/
theorem bstageStepGathersDecimatesPublishes : Obligations.BstageStepGathersDecimatesPublishes := by
  intro s
  refine ⟨fun h => ifAdmitted_ifRunning_neg h, fun hc hf hrun hq => exec_bstageStep_nil ⟨hc, hf, hrun⟩ hq,
    fun b rest hc hf hrun hq hg => ?_, ?_⟩
  · exact ⟨s.gbuf.write s.g b, exec_bstageStep_gathers ⟨hc, hf, hrun⟩ hq hg, Memory.read_write s.gbuf s.g b⟩
  · intro b rest gathered hc hf hrun hq h7 hlen hread d now first ts frame code res
    have hgroup : Gathered s gathered := ⟨h7.trans hlen.symm, hlen ▸ hread⟩
    have hstep := exec_bstageStep_eighth ⟨hc, hf, hrun⟩ hq hgroup hlen
    have hstamp : BatchStamp { s with bq := rest, gbuf := s.gbuf.write 7 b } now first ts :=
      ⟨fun h0 => ⟨if_pos h0, if_pos h0⟩, fun h0 => ⟨if_neg h0, if_neg h0⟩⟩
    refine ⟨s.gbuf.write 7 b, Memory.read_write s.gbuf 7 b, fun hk => ?_, fun hk => ?_⟩
    · rw [hstep, finishGroup_more _ hstamp hk]
      rfl
    · rw [hstep, finishGroup_last _ hstamp hk]
      rfl

/-! ### Eight steps make one block of the batch (R212, R218) -/

theorem execAll_append_of_next {is : List Instr} (js : List Instr) {s t : State} (h : execAll is s = .next t) :
    execAll (is ++ js) s = execAll js t := by
  induction is generalizing s with
  | nil => cases h; rfl
  | cons i is ih =>
    rw [execAll] at h
    split at h
    next u hu => rw [List.cons_append, execAll_cons_of_next hu, ih h]
    · cases h
    · cases h

/-- The steps left of a group gather its blocks one by one, and the last finishes it. -/
theorem execAll_restOfGroup {bs rest xs : List Block} {b : Block} {s : State} (hs : ServesStep s) (hg : Gathered s xs)
    (hlen : xs.length + (bs.length + 1) = 8) (hq : s.bq = b :: (bs ++ rest)) :
    ∃ m x, execAll (List.replicate (bs.length + 1) .bstageStep) s =
      .next (answerWith (.completed []) (finishGroup (xs ++ b :: bs) { s with bq := rest, gbuf := m, answer := x })) := by
  induction bs generalizing xs b s with
  | nil => exact ⟨_, _, execAll_cons_of_next (exec_bstageStep_eighth hs hq hg (Nat.succ.inj hlen))⟩
  | cons b' bs ih =>
    rw [List.length_cons] at hlen ⊢
    have hlt : s.g < 7 := by
      rw [hg.count]
      omega
    rw [List.replicate_succ, execAll_cons_of_next (exec_bstageStep_gathers hs hq hlt), List.append_cons]
    exact ih hs (hg.append b) (by rw [List.length_append, List.length_singleton]; omega) rfl

/-- A group of eight at the head of the queue is finished by eight steps, whatever the gather buffer held before. -/
theorem execAll_group {grp rest : List Block} {s : State} (hs : ServesStep s) (hg : s.g = 0) (hlen : grp.length = 8)
    (hq : s.bq = grp ++ rest) :
    ∃ m x, execAll (List.replicate 8 .bstageStep) s =
      .next (answerWith (.completed []) (finishGroup grp { s with bq := rest, gbuf := m, answer := x })) := by
  cases grp with
  | nil => cases hlen
  | cons b bs =>
    have h := execAll_restOfGroup hs (.nil hg) (b := b) (bs := bs) (by simpa using hlen) hq
    rwa [← List.length_cons, hlen] at h

/-! ### A batch of groups makes one frame (R196, R218) -/

/-- The groups left of a batch join it one by one, and the last makes the frame. After each the batch is no longer empty, so the
stamp of the first one stands. -/
theorem execAll_restOfBatch {grps : List (List Block)} {grp rest : List Block} {s : State} {first ts : Word}
    (hs : ServesStep s) (hg : s.g = 0) (hstamp : BatchStamp s (s.nowIn.headD (Config.nowMs s.nowDraws)) first ts)
    (hcount : s.a + (grps.length + 1) = s.cfg.batchK) (hlen : ∀ x ∈ grp :: grps, x.length = 8)
    (hq : s.bq = (grp :: grps).flatten ++ rest) :
    ∃ t res, execAll (List.replicate (8 * (grps.length + 1)) .bstageStep) s = .next t ∧
      t.pubTrace = s.pubTrace ++
        [(encodeFrame s.cfg first ts (s.acc ++ ((grp :: grps).map decimateBlocks).flatten), res)] ∧
      t.bq = rest ∧ t.g = 0 ∧ t.a = 0 ∧ t.seq = s.seq + BitVec.ofNat 32 (grps.length + 1) := by
  rw [List.flatten_cons, List.append_assoc] at hq
  induction grps generalizing grp s with
  | nil =>
    rw [List.map_singleton, List.flatten_singleton]
    obtain ⟨m, x, hrun⟩ := execAll_group hs hg (hlen grp List.mem_cons_self) hq
    have hlast := finishGroup_last (s := { s with bq := rest, gbuf := m, answer := x }) grp hstamp hcount
    rw [List.flatten_nil, List.nil_append, hlast] at hrun
    exact ⟨_, _, hrun, rfl, rfl, rfl, rfl, rfl⟩
  | cons grp' grps ih =>
    have ⟨hgrp, hgrps⟩ := List.forall_mem_cons.1 hlen
    rw [List.length_cons] at hcount ⊢
    have hk : s.a + 1 ≠ s.cfg.batchK := by omega
    have hcount' : s.a + 1 + (grps.length + 1) = s.cfg.batchK := by omega
    have hsteps : 8 * (grps.length + 1 + 1) = 8 + 8 * (grps.length + 1) := by omega
    have hseq : s.seq + 1 + BitVec.ofNat 32 (grps.length + 1) = s.seq + BitVec.ofNat 32 (grps.length + 1 + 1) := by bv_omega
    rw [hsteps, List.replicate_add, List.map_cons, List.flatten_cons, ← List.append_assoc, ← hseq]
    obtain ⟨m, x, hrun⟩ := execAll_group hs hg hgrp hq
    have hmore :=
      finishGroup_more (s := { s with bq := (grp' :: grps).flatten ++ rest, gbuf := m, answer := x }) grp hstamp hk
    rw [hmore] at hrun
    rw [execAll_append_of_next _ hrun]
    exact ih hs rfl ⟨fun h0 => absurd h0 (Nat.succ_ne_zero _), fun _ => ⟨rfl, rfl⟩⟩ hcount' hgrps (List.append_assoc ..)

/-- Settles O26: the batch is empty at the start, so the first group stamps it with its own number and reading. -/
theorem pipelineMakesOneFrameOfEightKBlocks : Obligations.PipelineMakesOneFrameOfEightKBlocks := by
  intro s groups rest hinv hc hf hrun hg ha hlen hgroups hq
  have hacc : s.acc = [] := by simpa [ha] using hinv.batch.bodies
  have hpos := legal_batchK_pos hinv.params
  have hstamp : BatchStamp s (s.nowIn.headD (Config.nowMs s.nowDraws)) s.seq (s.nowIn.headD (Config.nowMs s.nowDraws)) :=
    ⟨fun _ => ⟨rfl, rfl⟩, fun h => absurd ha h⟩
  cases groups with
  | nil => simp only [List.length_nil] at hlen; omega
  | cons grp grps =>
    rw [List.length_cons] at hlen
    have h := execAll_restOfBatch ⟨hc, hf, hrun⟩ hg hstamp (by omega) hgroups hq
    rwa [hacc, List.nil_append, hlen] at h

end Sys2Proof.Machine
end

