-- ==== Sys2Proof/Proofs/Exceptions.lean ====
section
/-! PROOFS. Ownership and refusal (spec/60_exceptions.md R246, R251), requests that are no operation (R251 (d), R100), the fatal
fault (R236), and the diagnostics (R247, R35). -/

namespace Sys2Proof.Machine

/-! ### Ownership (R246, R251 (a)) -/

/-- Every operation checks its caller first, those admitted while faulted too. -/
theorem refuses_of_caller_ne {i : Instr} {s : State} (h : s.caller ≠ ownerOf i) : Refuses i s := by
  cases i with
  | ringLevel | xferStop | bstageStop | diagRead | reset => exact ⟨.notOwner, ifOwner_neg h⟩
  | _ => exact ifAdmitted_neg (.inl h)

/-- Settles O33: the agent the statement names for each operation is its owner in the model. -/
theorem onlyTheOwnerIsServed : Obligations.OnlyTheOwnerIsServed := by
  intro i s h
  apply refuses_of_caller_ne
  cases i <;> exact h

/-! ### The fatal fault (R236) -/

/-- The five operations that are admitted also while the block is faulted (R236). -/
def AdmittedWhileFaulted (i : Instr) : Prop :=
  i = .ringLevel ∨ i = .xferStop ∨ i = .bstageStop ∨ (∃ sel, i = .diagRead sel) ∨ i = .reset

/-- Every operation but the five is refused while faulted, to its owner too (R251 (b)). -/
theorem refuses_of_fault {i : Instr} {s : State} (hf : s.fault = true) (hi : ¬ AdmittedWhileFaulted i) : Refuses i s := by
  cases i with
  | ringLevel | xferStop | bstageStop | diagRead | reset => simp [AdmittedWhileFaulted] at hi
  | _ => exact ifAdmitted_neg (.inr hf)

/-- The five are H's, and they complete whatever the state is. -/
theorem completes_of_admittedWhileFaulted {i : Instr} {s : State} (hc : s.caller = .H) (hi : AdmittedWhileFaulted i) :
    ∃ t p, exec i s = .next t ∧ t.answer = .completed p := by
  rcases hi with rfl | rfl | rfl | ⟨sel, rfl⟩ | rfl <;> exact ⟨_, _, ifOwner_pos hc, rfl⟩

/-! The shared operations keep the fault flag. -/

theorem takeFromRing_fault {s u : State} {out : Option Block} (h : takeFromRing s = .ok (out, u)) : u.fault = s.fault := by
  rw [takeFromRing_frame h]

@[simp] theorem queuePush_fault (b : Block) (s : State) : (queuePush b s).2.fault = s.fault := by
  rcases queuePush_cases b s with ⟨_, hq⟩ | ⟨_, hq⟩ <;> rw [hq]

@[simp] theorem queueTake_fault (s : State) : (queueTake s).2.fault = s.fault := by
  rcases queueTake_cases s with ⟨_, hq⟩ | ⟨_, _, _, hq⟩ <;> rw [hq]

@[simp] theorem forwardBlock_fault (b : Block) (s : State) : (forwardBlock b s).fault = s.fault := by rw [forwardBlock_eq]

@[simp] theorem publish_fault (f : Bytes) (s : State) : (publish f s).2.fault = s.fault := by rw [publish_eq]

@[simp] theorem appendBlock_fault (d : Block) (now : Word) (s : State) : (appendBlock d now s).2.fault = s.fault := by
  rcases appendBlock_cases d now s with ⟨_, ha⟩ | ⟨_, ha⟩ <;> rw [ha]

@[simp] theorem finishGroup_fault (bs : List Block) (s : State) : (finishGroup bs s).fault = s.fault := by
  rcases finishGroup_eq bs s with ⟨_, hg⟩ | ⟨_, hg⟩ <;> rw [hg]

/-- The fault flag is as it was, or the shape violation was raised and nothing else happened (R231, R236). -/
def FaultKeptOrRaised (s : State) (x : Answer) (u : State) : Prop :=
  u.fault = s.fault ∨ (u = raiseFault 4 s ∧ x = .faultRaised 4)

theorem Presented.faultKeptOrRaised {b : Block} {s u : State} {x : Answer} (h : Presented b s x u) : FaultKeptOrRaised s x u := by
  rcases h with ⟨_, rfl, _⟩ | ⟨_, hu, hx⟩
  · exact .inl (pushBlock_fault b s)
  · exact .inr ⟨hu, hx⟩

/-- RESET apart, an operation's effect on the fault flag is to raise it and nothing else, or none. -/
theorem Effect.faultKeptOrRaised {i : Instr} {s u : State} {x : Answer} (h : Effect i s x u) (hi : i ≠ .reset) :
    FaultKeptOrRaised s x u := by
  cases i with
  | ringPush b =>
    obtain ⟨_, _, hp⟩ := h
    exact hp.faultKeptOrRaised
  | ringTryPop =>
    obtain ⟨_, _, out, hT, _⟩ := h
    exact .inl (takeFromRing_fault hT)
  | bqTryPush b =>
    obtain ⟨_, _, rfl, _⟩ := h
    exact .inl (queuePush_fault b s)
  | bqPop =>
    obtain ⟨_, _, rfl, _⟩ := h
    exact .inl (queueTake_fault s)
  | xferTick =>
    obtain ⟨_, _, _, _, hT | ⟨b, s1, hT, rfl⟩⟩ := h
    · exact .inl (takeFromRing_fault hT)
    · exact .inl ((forwardBlock_fault b s1).trans (takeFromRing_fault hT))
  | asmAppend d now =>
    obtain ⟨_, _, ⟨_, rfl, _⟩ | ⟨_, hu, hx⟩⟩ := h
    · exact .inl (appendBlock_fault d now s)
    · exact .inr ⟨hu, hx⟩
  | bstageStep =>
    obtain ⟨_, _, _, _, ⟨_, rfl⟩ | ⟨b, rest, _, ⟨_, rfl⟩ | ⟨_, bs, _, rfl⟩⟩⟩ := h
    · exact .inl rfl
    · exact .inl rfl
    · exact .inl (finishGroup_fault bs _)
  | sinkPublish f =>
    obtain ⟨_, _, rfl, _⟩ := h
    exact .inl (publish_fault f s)
  | capDeliver opt =>
    cases opt with
    | none => obtain ⟨_, _, rfl, _⟩ := h; exact .inl rfl
    | some b => obtain ⟨_, _, hp⟩ := h; exact hp.faultKeptOrRaised
  | bqDiscard | decimate bs | frameEncode sf ts body => obtain ⟨_, _, rfl, _⟩ := h; exact .inl rfl
  | ringLevel | xferStop | bstageStop | diagRead sel => obtain ⟨_, rfl, _⟩ := h; exact .inl rfl
  | reset => exact absurd rfl hi

/-- Raising the fault writes the two flags and the answer (R236). -/
theorem exec_raises_fault {i : Instr} {s t : State} (h : exec i s = .next t) (hs : s.fault = false) (ht : t.fault = true) :
    t = answerWith (.faultRaised 4) (raiseFault 4 s) := by
  rcases exec_next h with ⟨why, rfl⟩ | ⟨x, u, rfl, hE⟩
  · simp [hs] at ht
  · by_cases hi : i = .reset
    · subst hi
      obtain ⟨_, rfl, _⟩ := hE
      cases ht
    · rcases hE.faultKeptOrRaised hi with hkept | ⟨rfl, rfl⟩
      · simp [hkept, hs] at ht
      · rfl

/-- No operation but RESET clears the fault (R236). -/
theorem exec_keeps_fault {i : Instr} {s t : State} (h : exec i s = .next t) (hs : s.fault = true) (hi : i ≠ .reset) :
    t.fault = true := by
  rcases exec_next h with ⟨why, rfl⟩ | ⟨x, u, rfl, hE⟩
  · exact hs
  · rcases hE.faultKeptOrRaised hi with hkept | ⟨rfl, _⟩
    · exact hkept.trans hs
    · rfl

/-- Settles O32: an effect raises the fault or leaves the flag alone, the guard of a data operation refuses while it stands, and
the five have no such guard. -/
theorem faultIsPreciseStickyAndRefusesAllButFive : Obligations.FaultIsPreciseStickyAndRefusesAllButFive := by
  refine ⟨fun i s t h hs ht => exec_raises_fault h hs ht, fun i s hf hlevel htstop hbstop hdiag hreset => ?_,
    fun i s _ hc hi => completes_of_admittedWhileFaulted hc hi, fun i s t h hs hi => exec_keeps_fault h hs hi⟩
  apply refuses_of_fault hf
  rintro (hi | hi | hi | ⟨sel, hi⟩ | hi)
  · exact hlevel hi
  · exact htstop hi
  · exact hbstop hi
  · exact hdiag sel hi
  · exact hreset hi

/-! ### Requests that are no operation (R251 (d), R100) -/

/-- The 17 op-select codes of R100. -/
def assignedCodes : List Byte :=
  [0x01, 0x02, 0x03, 0x11, 0x12, 0x13, 0x20, 0x21, 0x30, 0x40, 0x41, 0x50, 0x51, 0x60, 0x70, 0x7E, 0x7F]

theorem decode_unassigned (c : Params) {op : Byte} (p : Bytes) (h : op ∉ assignedCodes) :
    decode c (op :: p) = .bad (.unassigned op) := by
  simp only [decode, decodePayload]
  split
  -- The last case is the default row of decodePayload's table; each of the others has an assigned code.
  case h_18 => rfl
  all_goals
    rename_i hop
    obtain rfl := eq_ofNat_of_toNat_eq hop
    exact absurd (by decide) h

/-- Settles O41: a code that no row of the decoder's table has is not decoded, and the step refuses what is not decoded. -/
theorem unassignedCodesAreRefused : Obligations.UnassignedCodesAreRefused :=
  fun s _ op p _ hq hop => ⟨.notAnOperation (.unassigned op), step_undecoded hq (decode_unassigned s.cfg p hop)⟩

/-! ### The diagnostic values (R35, R247) -/

/-- The level fits in 32 bits, whatever `RING_N` is. -/
theorem diagCount_ringLevel_toNat (s : State) : (diagCount (ringLevel s)).toNat = min (s.wr - s.rd).toNat s.cfg.ringN :=
  diagCount_toNat ((Nat.min_le_left _ _).trans_lt (s.wr - s.rd).isLt)

theorem diagValue_reserved (s : State) {sel : Byte} (h : 16 ≤ sel.toNat) : diagValue s sel = 0 := by
  unfold diagValue
  split
  case h_17 => rfl
  all_goals omega

/-- A bit of a word that is a flag's value. -/
theorem getLsbD_eq_of_toNat {w : Word} {k : Nat} {b : Bool} (h : w.toNat / 2 ^ k % 2 = b.toNat) : w.getLsbD k = b := by
  rw [BitVec.getLsbD, Nat.testBit_eq_decide_div_mod_eq, h]
  cases b <;> rfl

theorem extractLsb'_toNat_eq_of_toNat {w : Word} {start len n : Nat} (h : w.toNat / 2 ^ start % 2 ^ len = n) :
    (w.extractLsb' start len).toNat = n := by
  rw [BitVec.extractLsb'_toNat, Nat.shiftRight_eq_div_pow, h]

theorem extractLsb'_eq_of_toNat {w : Word} {start len : Nat} {v : BitVec len} (h : w.toNat / 2 ^ start % 2 ^ len = v.toNat) :
    w.extractLsb' start len = v :=
  BitVec.eq_of_toNat_eq (extractLsb'_toNat_eq_of_toNat h)

/-- Every field of `STATUS` stands where R35 puts it: its place in the word's sum of powers of two. -/
theorem statusWord_fields (s : State) :
    (statusWord s).getLsbD 0 = s.fault ∧ (statusWord s).extractLsb' 1 3 = s.faultCode ∧ (statusWord s).getLsbD 4 = s.tRun ∧
      (statusWord s).getLsbD 5 = s.bRun ∧ (statusWord s).extractLsb' 6 2 = 0 ∧
      (s.g < 8 → ((statusWord s).extractLsb' 8 3).toNat = s.g) ∧ (statusWord s).extractLsb' 11 5 = 0 ∧
      (s.a < 65536 → ((statusWord s).extractLsb' 16 16).toNat = s.a) := by
  have hw := statusWord_toNat s
  have hfault := s.fault.toNat_le
  have hcode := s.faultCode.isLt
  have ht := s.tRun.toNat_le
  have hb := s.bRun.toNat_le
  have hzero2 : (0 : BitVec 2).toNat = 0 := rfl
  have hzero5 : (0 : BitVec 5).toNat = 0 := rfl
  refine ⟨getLsbD_eq_of_toNat ?_, extractLsb'_eq_of_toNat ?_, getLsbD_eq_of_toNat ?_, getLsbD_eq_of_toNat ?_,
    extractLsb'_eq_of_toNat ?_, fun hg => extractLsb'_toNat_eq_of_toNat ?_, extractLsb'_eq_of_toNat ?_,
    fun ha => extractLsb'_toNat_eq_of_toNat ?_⟩
  all_goals omega

/-- Settles O29: DIAG.READ checks its caller only, and answers the selected row of the table, which the clauses follow. -/
theorem diagReadAnswersTheSelectedValue : Obligations.DiagReadAnswersTheSelectedValue := by
  intro s sel
  refine ⟨fun h => ⟨.notOwner, ifOwner_neg h⟩, fun hc => ⟨diagValue s sel, ifOwner_pos hc, ?_⟩⟩
  exact ⟨(· ▸ rfl), (· ▸ rfl), (· ▸ rfl), (· ▸ rfl), (· ▸ rfl), (· ▸ diagCount_ringLevel_toNat s), (· ▸ diagCount_toNat),
    (· ▸ rfl), (· ▸ rfl), (· ▸ rfl), (· ▸ statusWord_fields s), (· ▸ diagCount_toNat), (· ▸ diagCount_toNat),
    (· ▸ diagCount_toNat), (· ▸ BitVec.toNat_setWidth_of_le (by decide)), (· ▸ rfl), diagValue_reserved s⟩

end Sys2Proof.Machine
end

