-- ==== Sys2Proof/Proofs/ResetAndHazards.lean ====
section
/-! PROOFS. RESET (spec/70_reset_and_hazards.md R261, R40), the shutdown order and the clean end of a run (R267, R268), and the
malformed delivery request (spec/93_implementation_defined.md E9). -/

namespace Sys2Proof.Machine

/-! ### The shutdown order (R267, R268) -/

/-- Settles O39: the three operations' own statements in a chain; each leaves the caller H, and XFER.STOP leaves the fault flag
clear, which the discard's guard asks for. -/
theorem shutdownInOrderEndsCleanly : Obligations.ShutdownInOrderEndsCleanly := by
  intro s hc hf
  have hstopT : exec .xferStop s = .next { s with tRun := false, answer := .completed [] } :=
    (xferStopClearsTRun s).2 hc
  have hdiscard := (bqDiscardEmptiesUncounted { s with tRun := false, answer := .completed [] }).2 hc hf
  have hstopB := (bstageStopDiscardsPartialBatch { s with tRun := false, bq := [], answer := .completed [] }).2 hc
  have hrun : execAll [.xferStop, .bqDiscard, .bstageStop] s =
      .next { s with tRun := false, bRun := false, bq := [], g := 0, a := 0, acc := [], answer := .completed [] } := by
    rw [execAll_cons_of_next hstopT, execAll_cons_of_next hdiscard]
    exact execAll_cons_of_next hstopB
  exact ⟨_, hrun, ⟨rfl, rfl, rfl, rfl, rfl, hf⟩, rfl⟩

/-! ### RESET (R261) -/

/-- Settles O30: RESET checks its caller only, and its effect is `toReset`, whatever the state was; the values that the statement
leaves open are the model's free words (assumption 6). -/
theorem resetPutsEveryElementAtItsResetValue : Obligations.ResetPutsEveryElementAtItsResetValue := fun s =>
  ⟨fun h => refuses_of_caller_ne h,
    fun hc => ⟨Config.freeWord s.freeCount, Config.freeWord (s.freeCount + 1), s.freeCount + 2, ifOwner_pos hc⟩⟩

/-! ### A delivery whose `some` byte is neither 0 nor 1 (E9) -/

theorem decode_capDeliver_malformed (c : Params) {present : Byte} (b : Bytes) (h0 : present ≠ 0x00#8) (h1 : present ≠ 0x01#8) :
    decode c (0x70 :: present :: b) = .bad (.malformed 0x70) := by
  have hnone : ¬ (present = 0x00#8 ∧ b = []) := fun h => h0 h.1
  rw [decode_capDeliver, decodeCapDeliver, if_neg hnone, if_neg h1]

/-- Settles O42: such a request decodes to no operation, and the step refuses what is not decoded. -/
theorem malformedDeliveryIsRefused : Obligations.MalformedDeliveryIsRefused :=
  fun s _ _ b _ hq h0 h1 =>
    ⟨.notAnOperation (.malformed 0x70), step_undecoded hq (decode_capDeliver_malformed s.cfg b h0 h1)⟩

end Sys2Proof.Machine
end
